-- ==== Sys2Proof/Word.lean ====
section
/-! DEFINITION. The fixed-width values of the block (00_scope.md R8, R10, R14): bytes, 16-bit words and
4-bit register numbers. Every value is unsigned (R10). -/

namespace Sys2Proof

/-- A byte of memory, a `V` register or a timer (R8). -/
abbrev Byte := BitVec 8

/-- A 16-bit value: an instruction word, `pc`, `I`, a stack entry (R8). -/
abbrev Word := BitVec 16

/-- A register number: the 4-bit field `X` or `Y` of a word, so every one is in range (R14, R21). -/
abbrev RegNum := BitVec 4

/-- `VF`, the 16th register, which several instructions overwrite with a flag (R22). -/
abbrev VF : RegNum := 0xF#4

/-- `MEM_SIZE`: the number of bytes of memory (R8). -/
abbrev memSize : Nat := 4096

/-- `DISP_W`: the number of display columns (R8). -/
abbrev dispWidth : Nat := 64

/-- `DISP_H`: the number of display rows (R8). -/
abbrev dispHeight : Nat := 32

/-- `STACK_DEPTH`: the number of stack entries (R8). -/
abbrev stackDepth : Nat := 16

/-- `NKEYS`: the number of keys (R8). -/
abbrev numKeys : Nat := 16

/-- `FONT_SIZE`: the number of font bytes, 16 glyphs of 5 bytes (R8). -/
abbrev fontSize : Nat := 80

/-- `PROG_BASE`: where programs load and where `start` sets the `pc` (R8, R221). -/
abbrev progBase : Nat := 0x200

end Sys2Proof
end

