-- ==== Sys2Proof/Config.lean ====
section
/-! DEFINITION. The named parameters of 00_scope.md R9, each with the spec's default, and the one free value,
the random byte that CXNN draws (10_state.md R35). -/

namespace Sys2Proof

/-- What CALL pushes (R9, 92 D3). -/
inductive CallLink where
  /-- The address of the CALL + 2 (the default). -/
  | postFetch
  /-- The address of the CALL itself. -/
  | preFetch
deriving DecidableEq, Repr

/-- The modulus DRW applies to `V[Y]` for the draw origin (R9, 92 D4). -/
inductive DrawYWrap where
  /-- 64 (the default). -/
  | mod64
  /-- 32. -/
  | mod32
deriving DecidableEq, Repr

/-- Whether BNNN masks its target (R9, 92 D9). -/
inductive JumpOffsetMask where
  /-- The 16-bit sum as it is (the default). -/
  | none
  /-- The sum AND 0xFFF. -/
  | mask12
deriving DecidableEq, Repr

/-- Which register 8XY6 and 8XYE shift (R9, 92 D10). -/
inductive ShiftSource where
  /-- `V[X]` (the default). -/
  | vx
  /-- `V[Y]`. -/
  | vy
deriving DecidableEq, Repr

/-- The parameters of R9 that a machine is built with. No instruction changes them (R36). `rand` of R9 is
the free value `Config.rand` below. -/
structure Config where
  /-- `CallLink`. -/
  callLink : CallLink
  /-- `DrawYWrap`. -/
  drawYWrap : DrawYWrap
  /-- `SubFlagOnEqual`: `true` is 1. -/
  subFlagOnEqual : Bool
  /-- `JumpOffsetMask`. -/
  jumpOffsetMask : JumpOffsetMask
  /-- `ShiftSource`. -/
  shiftSource : ShiftSource
  /-- `StrictDecode`. -/
  strictDecode : Bool
  /-- `FontTable`: the bytes `load_font` copies to 0x000–0x04F. -/
  fontTable : Vector Byte 80
deriving DecidableEq, Repr

/-- The default `FontTable`: glyphs 0 to F of R33, five bytes each, top row first. PRESUMED: the source does
not give these bytes, the spec supplies them from general knowledge (93 G2). -/
def Config.defaultFont : Vector Byte 80 :=
  (#v[0xF0, 0x90, 0x90, 0x90, 0xF0,  0x20, 0x60, 0x20, 0x20, 0x70,
      0xF0, 0x10, 0xF0, 0x80, 0xF0,  0xF0, 0x10, 0xF0, 0x10, 0xF0] : Vector Byte 20) ++
  (#v[0x90, 0x90, 0xF0, 0x10, 0x10,  0xF0, 0x80, 0xF0, 0x10, 0xF0,
      0xF0, 0x80, 0xF0, 0x90, 0xF0,  0xF0, 0x10, 0x20, 0x40, 0x40] : Vector Byte 20) ++
  (#v[0xF0, 0x90, 0xF0, 0x90, 0xF0,  0xF0, 0x90, 0xF0, 0x10, 0xF0,
      0xF0, 0x90, 0xF0, 0x90, 0x90,  0xE0, 0x90, 0xE0, 0x90, 0xE0] : Vector Byte 20) ++
  (#v[0xF0, 0x80, 0x80, 0x80, 0xF0,  0xE0, 0x90, 0x90, 0x90, 0xE0,
      0xF0, 0x80, 0xF0, 0x80, 0xF0,  0xF0, 0x80, 0xF0, 0x80, 0x80] : Vector Byte 20)

/-- Every parameter at its default (R9). -/
def Config.default : Config where
  callLink := .postFetch
  drawYWrap := .mod64
  subFlagOnEqual := false
  jumpOffsetMask := .none
  shiftSource := .vx
  strictDecode := true
  fontTable := Config.defaultFont

/-- The modulus `DrawYWrap` names. -/
def DrawYWrap.modulus : DrawYWrap → Nat
  | .mod64 => 64
  | .mod32 => 32

/-- The FREE VALUE `rand` (R9, R35, 92 D18): the byte drawn for the n-th CXNN. It has no body, so no proof
can learn any of its values, and successive draws are unrelated. -/
opaque Config.rand : Nat → Byte

end Sys2Proof
end

