-- ==== Sys2Proof/Syntax.lean ====
section
/-! DEFINITION. The 34 instruction variants of the opcode map (30_encoding.md R75), one constructor per row.
Registers are 4-bit numbers and immediates bytes; an address operand is the 16-bit value that is written to
`pc` or `I` (R72, `zext_16(NNN)`), and a sprite's row count is a number. WellFormed.lean bounds the two. -/

namespace Sys2Proof

/-- A decoded instruction (R74, R75). Operands are written in the order of the assembler syntax (R90). -/
inductive Instr where
  /-- `00E0` CLS (R150). -/
  | cls
  /-- `00EE` RET (R101). -/
  | ret
  /-- `1NNN` JP NNN (R102). -/
  | jp (nnn : Word)
  /-- `2NNN` CALL NNN (R103). -/
  | call (nnn : Word)
  /-- `3XNN` SE Vx, NN (R105). -/
  | seImm (x : RegNum) (nn : Byte)
  /-- `4XNN` SNE Vx, NN (R106). -/
  | sneImm (x : RegNum) (nn : Byte)
  /-- `5XY0` SE Vx, Vy (R107). -/
  | seReg (x y : RegNum)
  /-- `6XNN` LD Vx, NN (R120). -/
  | ldImm (x : RegNum) (nn : Byte)
  /-- `7XNN` ADD Vx, NN (R125). -/
  | addImm (x : RegNum) (nn : Byte)
  /-- `8XY0` LD Vx, Vy (R121). -/
  | ldReg (x y : RegNum)
  /-- `8XY1` OR Vx, Vy (R122). -/
  | orReg (x y : RegNum)
  /-- `8XY2` AND Vx, Vy (R123). -/
  | andReg (x y : RegNum)
  /-- `8XY3` XOR Vx, Vy (R124). -/
  | xorReg (x y : RegNum)
  /-- `8XY4` ADD Vx, Vy (R126). -/
  | addReg (x y : RegNum)
  /-- `8XY5` SUB Vx, Vy (R127). -/
  | sub (x y : RegNum)
  /-- `8XY6` SHR Vx {, Vy} (R129). -/
  | shr (x y : RegNum)
  /-- `8XY7` SUBN Vx, Vy (R128). -/
  | subn (x y : RegNum)
  /-- `8XYE` SHL Vx {, Vy} (R130). -/
  | shl (x y : RegNum)
  /-- `9XY0` SNE Vx, Vy (R108). -/
  | sneReg (x y : RegNum)
  /-- `ANNN` LD I, NNN (R180). -/
  | ldI (nnn : Word)
  /-- `BNNN` JP V0, NNN (R113). -/
  | jpV0 (nnn : Word)
  /-- `CXNN` RND Vx, NN (R131). -/
  | rnd (x : RegNum) (nn : Byte)
  /-- `DXYN` DRW Vx, Vy, N (R152). -/
  | drw (x y : RegNum) (n : Nat)
  /-- `EX9E` SKP Vx (R160). -/
  | skp (x : RegNum)
  /-- `EXA1` SKNP Vx (R161). -/
  | sknp (x : RegNum)
  /-- `FX07` LD Vx, DT (R162). -/
  | ldVxDt (x : RegNum)
  /-- `FX0A` LD Vx, K (R165). -/
  | ldVxK (x : RegNum)
  /-- `FX15` LD DT, Vx (R163). -/
  | ldDt (x : RegNum)
  /-- `FX18` LD ST, Vx (R164). -/
  | ldSt (x : RegNum)
  /-- `FX1E` ADD I, Vx (R181). -/
  | addI (x : RegNum)
  /-- `FX29` LD F, Vx (R182). -/
  | ldF (x : RegNum)
  /-- `FX33` LD B, Vx (R183). -/
  | ldB (x : RegNum)
  /-- `FX55` LD [I], Vx (R184). -/
  | stRegs (x : RegNum)
  /-- `FX65` LD Vx, [I] (R185). -/
  | ldRegs (x : RegNum)
deriving DecidableEq, Repr

end Sys2Proof
end

