-- ==== Sys2Proof/WellFormed.lean ====
section
/-! DEFINITION. The two bounds an operand must meet to have an encoding (30_encoding.md R72): an address has
12 bits and a row count has 4. Register numbers and immediates meet their bounds by their types. -/

namespace Sys2Proof

/-- An address operand fits the 12-bit field NNN: `zext_16(NNN) <= 0x0FFF` (R72). -/
def addressFits (nnn : Word) : Bool := nnn.toNat < 0x1000

/-- A row count fits the 4-bit field N: 0 to 15 (R72). -/
def rowCountFits (n : Nat) : Bool := n < 16

/-- The instruction has an encoding: each operand fits its field. -/
def Instr.wellFormed : Instr → Bool
  | .jp nnn | .call nnn | .ldI nnn | .jpV0 nnn => addressFits nnn
  | .drw _ _ n => rowCountFits n
  | .cls | .ret => true
  | .seImm _ _ | .sneImm _ _ | .ldImm _ _ | .addImm _ _ | .rnd _ _ => true
  | .seReg _ _ | .sneReg _ _ | .ldReg _ _ | .orReg _ _ | .andReg _ _ | .xorReg _ _ => true
  | .addReg _ _ | .sub _ _ | .shr _ _ | .subn _ _ | .shl _ _ => true
  | .skp _ | .sknp _ | .ldVxDt _ | .ldVxK _ | .ldDt _ | .ldSt _ => true
  | .addI _ | .ldF _ | .ldB _ | .stRegs _ | .ldRegs _ => true

end Sys2Proof
end

