-- ==== Sys2Proof/Decode.lean ====
section
/-! DEFINITION. The fields of an instruction word (00_scope.md R14), the decoder of 30_encoding.md R82, the opcode
map of R75 as a table, and the encoder written from the same patterns. -/

namespace Sys2Proof

/-! ## Fields and words -/

/-- `F = w[15:12]`, the family selector (R14). -/
def fieldF (w : Word) : BitVec 4 := w.extractLsb' 12 4

/-- `X = w[11:8]`, the first register operand (R14). -/
def fieldX (w : Word) : RegNum := w.extractLsb' 8 4

/-- `Y = w[7:4]`, the second register operand (R14). -/
def fieldY (w : Word) : RegNum := w.extractLsb' 4 4

/-- `N = w[3:0]`, a 4-bit immediate or selector (R14). -/
def fieldN (w : Word) : BitVec 4 := w.extractLsb' 0 4

/-- `NN = w[7:0]`, an 8-bit immediate or selector (R14). -/
def fieldNN (w : Word) : Byte := w.extractLsb' 0 8

/-- `zext_16(NNN)` with `NNN = w[11:0]` (R14, R72). -/
def fieldNNN (w : Word) : Word := (w.extractLsb' 0 12).setWidth 16

/-- The big-endian word of two bytes, the one at the lower address first (R51). -/
def bigEndian (hi lo : Byte) : Word := hi ++ lo

/-- The byte of a word stored at the lower address (R51). -/
def highByte (w : Word) : Byte := w.extractLsb' 8 8

/-- The byte of a word stored at the higher address (R51). -/
def lowByte (w : Word) : Byte := w.extractLsb' 0 8

/-! ## The decoder -/

/-- Why bytes are not an instruction. -/
inductive DecodeReject where
  /-- Fewer than two bytes: every instruction is exactly two (R73). -/
  | truncated
  /-- The word matches no row of the opcode map: `DecodeError(w)` (R81, R82). -/
  | illegalWord (w : Word)
deriving DecidableEq, Repr

/-- Family 0x0, selected by the low byte; under `StrictDecode` the nibble X must be 0 as well (R76, R80). -/
def decodeFamily0 (strict : Bool) (w : Word) : Except DecodeReject Instr :=
  if strict = true ∧ fieldX w ≠ 0 then .error (.illegalWord w)
  else match (fieldNN w).toNat with
    | 0xE0 => .ok .cls
    | 0xEE => .ok .ret
    | _ => .error (.illegalWord w)

/-- Family 0x8, selected by the low nibble (R77). -/
def decodeFamily8 (w : Word) : Except DecodeReject Instr :=
  let x := fieldX w
  let y := fieldY w
  match (fieldN w).toNat with
  | 0x0 => .ok (.ldReg x y)
  | 0x1 => .ok (.orReg x y)
  | 0x2 => .ok (.andReg x y)
  | 0x3 => .ok (.xorReg x y)
  | 0x4 => .ok (.addReg x y)
  | 0x5 => .ok (.sub x y)
  | 0x6 => .ok (.shr x y)
  | 0x7 => .ok (.subn x y)
  | 0xE => .ok (.shl x y)
  | _ => .error (.illegalWord w)

/-- Family 0xE, selected by the low byte (R78). -/
def decodeFamilyE (w : Word) : Except DecodeReject Instr :=
  match (fieldNN w).toNat with
  | 0x9E => .ok (.skp (fieldX w))
  | 0xA1 => .ok (.sknp (fieldX w))
  | _ => .error (.illegalWord w)

/-- Family 0xF, selected by the low byte (R79). -/
def decodeFamilyF (w : Word) : Except DecodeReject Instr :=
  let x := fieldX w
  match (fieldNN w).toNat with
  | 0x07 => .ok (.ldVxDt x)
  | 0x0A => .ok (.ldVxK x)
  | 0x15 => .ok (.ldDt x)
  | 0x18 => .ok (.ldSt x)
  | 0x1E => .ok (.addI x)
  | 0x29 => .ok (.ldF x)
  | 0x33 => .ok (.ldB x)
  | 0x55 => .ok (.stRegs x)
  | 0x65 => .ok (.ldRegs x)
  | _ => .error (.illegalWord w)

/-- A register-register compare: under `StrictDecode` the nibble N must be 0 (R80). -/
def decodeCompare (strict : Bool) (w : Word) (i : Instr) : Except DecodeReject Instr :=
  if strict = true ∧ fieldN w ≠ 0 then .error (.illegalWord w) else .ok i

/-- The decoder in full (R82): a pure function of the word, and of the parameter `StrictDecode`. -/
def decodeWord (strict : Bool) (w : Word) : Except DecodeReject Instr :=
  let x := fieldX w
  let y := fieldY w
  match (fieldF w).toNat with
  | 0x0 => decodeFamily0 strict w
  | 0x1 => .ok (.jp (fieldNNN w))
  | 0x2 => .ok (.call (fieldNNN w))
  | 0x3 => .ok (.seImm x (fieldNN w))
  | 0x4 => .ok (.sneImm x (fieldNN w))
  | 0x5 => decodeCompare strict w (.seReg x y)
  | 0x6 => .ok (.ldImm x (fieldNN w))
  | 0x7 => .ok (.addImm x (fieldNN w))
  | 0x8 => decodeFamily8 w
  | 0x9 => decodeCompare strict w (.sneReg x y)
  | 0xA => .ok (.ldI (fieldNNN w))
  | 0xB => .ok (.jpV0 (fieldNNN w))
  | 0xC => .ok (.rnd x (fieldNN w))
  | 0xD => .ok (.drw x y (fieldN w).toNat)
  | 0xE => decodeFamilyE w
  | 0xF => decodeFamilyF w
  | _ => .error (.illegalWord w)

/-- Decode the instruction at the front of a list of bytes, the lowest address first, and answer the bytes after
it. Every instruction is two bytes, whatever its bits (R51, R73). -/
def decode (strict : Bool) : List Byte → Except DecodeReject (Instr × List Byte)
  | hi :: lo :: rest =>
    match decodeWord strict (bigEndian hi lo) with
    | .ok i => .ok (i, rest)
    | .error e => .error e
  | [_] => .error .truncated
  | [] => .error .truncated

/-! ## The opcode map as a table -/

/-- One row of R75: `matchBits` is the word with its fields zeroed; a mask has a 1 at every fixed bit, `mask` under
`StrictDecode = true` and `maskLax` under `StrictDecode = false` (R75, R80). -/
structure OpcodeRow where
  mask : Word
  maskLax : Word
  matchBits : Word
deriving DecidableEq, Repr

/-- The mask in force. -/
def OpcodeRow.maskUnder (r : OpcodeRow) (strict : Bool) : Word := if strict then r.mask else r.maskLax

/-- The word matches the row: it has the row's value at every fixed bit. -/
def OpcodeRow.matchesWord (r : OpcodeRow) (strict : Bool) (w : Word) : Bool :=
  w &&& r.maskUnder strict = r.matchBits

/-- Rows 1 to 9 of R75. -/
def opcodeRowsA : List OpcodeRow :=
  [⟨0xFFFF, 0xF0FF, 0x00E0⟩, ⟨0xFFFF, 0xF0FF, 0x00EE⟩, ⟨0xF000, 0xF000, 0x1000⟩,
   ⟨0xF000, 0xF000, 0x2000⟩, ⟨0xF000, 0xF000, 0x3000⟩, ⟨0xF000, 0xF000, 0x4000⟩,
   ⟨0xF00F, 0xF000, 0x5000⟩, ⟨0xF000, 0xF000, 0x6000⟩, ⟨0xF000, 0xF000, 0x7000⟩]

/-- Rows 10 to 18 of R75, family 0x8. -/
def opcodeRowsB : List OpcodeRow :=
  [⟨0xF00F, 0xF00F, 0x8000⟩, ⟨0xF00F, 0xF00F, 0x8001⟩, ⟨0xF00F, 0xF00F, 0x8002⟩,
   ⟨0xF00F, 0xF00F, 0x8003⟩, ⟨0xF00F, 0xF00F, 0x8004⟩, ⟨0xF00F, 0xF00F, 0x8005⟩,
   ⟨0xF00F, 0xF00F, 0x8006⟩, ⟨0xF00F, 0xF00F, 0x8007⟩, ⟨0xF00F, 0xF00F, 0x800E⟩]

/-- Rows 19 to 25 of R75. -/
def opcodeRowsC : List OpcodeRow :=
  [⟨0xF00F, 0xF000, 0x9000⟩, ⟨0xF000, 0xF000, 0xA000⟩, ⟨0xF000, 0xF000, 0xB000⟩,
   ⟨0xF000, 0xF000, 0xC000⟩, ⟨0xF000, 0xF000, 0xD000⟩, ⟨0xF0FF, 0xF0FF, 0xE09E⟩,
   ⟨0xF0FF, 0xF0FF, 0xE0A1⟩]

/-- Rows 26 to 34 of R75, family 0xF. -/
def opcodeRowsD : List OpcodeRow :=
  [⟨0xF0FF, 0xF0FF, 0xF007⟩, ⟨0xF0FF, 0xF0FF, 0xF00A⟩, ⟨0xF0FF, 0xF0FF, 0xF015⟩,
   ⟨0xF0FF, 0xF0FF, 0xF018⟩, ⟨0xF0FF, 0xF0FF, 0xF01E⟩, ⟨0xF0FF, 0xF0FF, 0xF029⟩,
   ⟨0xF0FF, 0xF0FF, 0xF033⟩, ⟨0xF0FF, 0xF0FF, 0xF055⟩, ⟨0xF0FF, 0xF0FF, 0xF065⟩]

/-- The 34 rows of R75, in its order. -/
def opcodeTable : List OpcodeRow := opcodeRowsA ++ opcodeRowsB ++ opcodeRowsC ++ opcodeRowsD

/-- The word is legal: it matches some row of the opcode map (R81). -/
def legalWord (strict : Bool) (w : Word) : Bool := opcodeTable.any (fun r => r.matchesWord strict w)

/-! ## The encoder -/

/-- The word with nibbles F, X, Y, N (R70). -/
def wordXYN (f : BitVec 4) (x y : RegNum) (n : BitVec 4) : Word := f ++ x ++ y ++ n

/-- The word with nibbles F and X and low byte NN (R70). -/
def wordXNN (f : BitVec 4) (x : RegNum) (nn : Byte) : Word := f ++ x ++ nn

/-- The word with nibble F and the low 12 bits of an address (R70). -/
def wordNNN (f : BitVec 4) (nnn : Word) : Word := f ++ nnn.setWidth 12

/-- The word of an instruction, from the patterns of R75. -/
def encode : Instr → Word
  | .cls => 0x00E0
  | .ret => 0x00EE
  | .jp nnn => wordNNN 0x1 nnn
  | .call nnn => wordNNN 0x2 nnn
  | .seImm x nn => wordXNN 0x3 x nn
  | .sneImm x nn => wordXNN 0x4 x nn
  | .seReg x y => wordXYN 0x5 x y 0x0
  | .ldImm x nn => wordXNN 0x6 x nn
  | .addImm x nn => wordXNN 0x7 x nn
  | .ldReg x y => wordXYN 0x8 x y 0x0
  | .orReg x y => wordXYN 0x8 x y 0x1
  | .andReg x y => wordXYN 0x8 x y 0x2
  | .xorReg x y => wordXYN 0x8 x y 0x3
  | .addReg x y => wordXYN 0x8 x y 0x4
  | .sub x y => wordXYN 0x8 x y 0x5
  | .shr x y => wordXYN 0x8 x y 0x6
  | .subn x y => wordXYN 0x8 x y 0x7
  | .shl x y => wordXYN 0x8 x y 0xE
  | .sneReg x y => wordXYN 0x9 x y 0x0
  | .ldI nnn => wordNNN 0xA nnn
  | .jpV0 nnn => wordNNN 0xB nnn
  | .rnd x nn => wordXNN 0xC x nn
  | .drw x y n => wordXYN 0xD x y (BitVec.ofNat 4 n)
  | .skp x => wordXNN 0xE x 0x9E
  | .sknp x => wordXNN 0xE x 0xA1
  | .ldVxDt x => wordXNN 0xF x 0x07
  | .ldVxK x => wordXNN 0xF x 0x0A
  | .ldDt x => wordXNN 0xF x 0x15
  | .ldSt x => wordXNN 0xF x 0x18
  | .addI x => wordXNN 0xF x 0x1E
  | .ldF x => wordXNN 0xF x 0x29
  | .ldB x => wordXNN 0xF x 0x33
  | .stRegs x => wordXNN 0xF x 0x55
  | .ldRegs x => wordXNN 0xF x 0x65

/-- The bytes of a word in memory, the lowest address first (R51). -/
def wordBytes (w : Word) : List Byte := [highByte w, lowByte w]

/-- The bytes of an instruction in memory, the lowest address first (R51). -/
def encodeBytes (i : Instr) : List Byte := wordBytes (encode i)

/-! ## The table's numbering -/

/-- The word of a table row, whose bit 0 is the word's bit 0 (R11). A number that has a bit above the two bytes
of an instruction is none. -/
def tableWord (nbits w : Nat) : Option Word :=
  if w % 2 ^ nbits < 65536 then some (BitVec.ofNat 16 (w % 2 ^ nbits)) else none

/-- The instruction the decoder reads from the word `w` of `nbits` bits, laid out big-endian (R51), under the
default `StrictDecode` (R80). -/
def decodeTableWord (nbits w : Nat) : Option Instr :=
  match tableWord nbits w with
  | none => none
  | some word =>
    match decode Config.default.strictDecode (wordBytes word) with
    | .ok (i, _) => some i
    | .error _ => none

end Sys2Proof
end

