-- ==== Sys2Proof/Machine/State.lean ====
section
/-! DEFINITION. The state of the block (10_state.md R20), with its fault state (R32), and its reset values (R40).
Everything is plain data. -/

namespace Sys2Proof.Machine

/-- Memory: the listed bytes, addresses strictly rising, none with the value an unlisted address reads as
(`Memory.wf` in Machine/Ops.lean). It covers addresses 0x000–0xFFF (R38, R50). -/
abbrev Memory := List Host.Cell

/-- The display `Disp[y][x]`: 32 rows of 64 one-bit cells, `true` = lit (R30). -/
abbrev Display := Vector (Vector Bool 64) 32

/-- A fault recorded in the fault state: a cause of R202 with its info. `a` is the address of the faulting
instruction. Codes: `FaultCause.code` in Machine/Ops.lean. -/
inductive FaultCause where
  /-- Fetch would read past the end of memory (R203). -/
  | fetchOutOfRange (a : Word)
  /-- The word `w` fetched at `a` matches no row of the opcode map (R204). -/
  | decodeError (w a : Word)
  /-- DXYN, FX33, FX55 or FX65 needs the data address `addr`, the lowest that is 4096 or more (R202). -/
  | memOutOfRange (addr : Nat) (a : Word)
  /-- CALL needs stack entry `s`, which does not exist (R104). -/
  | stackOverflow (s : Nat) (a : Word)
  /-- EX9E or EXA1 reads key `k`, which does not exist (R160, R161). -/
  | keyIndexOutOfRange (k : Byte) (a : Word)
deriving DecidableEq, Repr

/-- Machine State (R20), with the configuration it was built with and the counter of random draws. -/
structure State where
  /-- `Mem[0..4095]` (R38). -/
  mem : Memory
  /-- `V[0..15]` (R21). -/
  v : Vector Byte 16
  /-- `I` (R25). -/
  index : Word
  /-- `pc` (R24). -/
  pc : Word
  /-- `sp` (R26). -/
  sp : Byte
  /-- `Stack[0..15]` (R27). -/
  stack : Vector Word 16
  /-- `DT` (R28). -/
  dt : Byte
  /-- `ST` (R29). -/
  st : Byte
  /-- `Disp[0..31][0..63]` (R30). -/
  disp : Display
  /-- `Key[0..15]`, `true` = down (R31). -/
  key : Vector Bool 16
  /-- `halted` (R32). -/
  halted : Bool
  /-- `fault` (R32). -/
  fault : Option FaultCause
  /-- The MODEL's own field: how many random bytes have been drawn. The next CXNN draws `Config.rand draws`
  (R35, 92 D18). -/
  draws : Nat
  /-- The parameters of R9 the machine was built with. Nothing changes them (R36). Held here because `step` has no
  other argument (DESIGN CHOICE, log entry 1). -/
  config : Config
deriving DecidableEq, Repr

/-- Why a step stops with no next state. The block's own faults are NOT here: they are next states that record
a `FaultCause` (R201). -/
inductive Fault where
  /-- RET with `sp > 15` would read a stack entry that does not exist. Raised by RET only, in states no session
  reaches (R26). Safe: the model stops where the spec says nothing (DESIGN CHOICE, log entry 3). -/
  | stackReadOutOfRange (sp : Byte)
deriving DecidableEq, Repr

/-- Why the model gives no next state to an instruction or to a host command. -/
inductive Refusal where
  /-- An instruction with no meaning yet, by its mnemonic. Raised by no arm of `exec`. Safe. -/
  | notModelled (mnemonic : String)
  /-- `load_bytes` of `len` bytes at `addr` does not fit in memory. Raised by `loadBytes`; the spec refuses the load
  as a whole (R216). Safe. -/
  | loadOutOfRange (addr len : Nat)
  /-- `set_key` of a key index above 15. Raised by `setKey`; the spec refuses the call (R218). Safe. -/
  | noSuchKey (k : Nat)
  /-- `get_pixel` outside the 64×32 display. Raised by `getPixel`; the spec refuses the call (R220). Safe. -/
  | noSuchPixel (x y : Nat)
deriving DecidableEq, Repr

/-- An all-dark display (R40). -/
def Display.dark : Display := Vector.replicate 32 (Vector.replicate 64 false)

/-- Machine State right after creation, with the given parameters: every field zero, memory not listed (R40,
R230). The font is loaded, and `pc` set to 0x200, by later host commands (R231). -/
def State.create (c : Config) : State where
  mem := []
  v := Vector.replicate 16 0
  index := 0
  pc := 0
  sp := 0
  stack := Vector.replicate 16 0
  dt := 0
  st := 0
  disp := Display.dark
  key := Vector.replicate 16 false
  halted := false
  fault := none
  draws := 0
  config := c

/-- The machine right after reset (R40, R230), every parameter at its default (R9). -/
def State.reset : State := State.create Config.default

end Sys2Proof.Machine
end

