-- ==== Sys2Proof/Machine/Ops.lean ====
section
/-! DEFINITION. The shared operations: memory, raising a fault, fetch, and the stack. -/

namespace Sys2Proof.Machine

/-- What an operation of the model answers. -/
abbrev Result := Host.Outcome State Fault Refusal

/-! ## Memory (20_memory.md R50–R60) -/

/-- What an address that is not listed reads as: 0, the reset value of every byte (R40). -/
def Memory.unlisted (_a : Nat) : Byte := 0

/-- The byte at `a`. Reading has no side effect (R57). -/
def Memory.read : Memory → Nat → Byte
  | [], a => Memory.unlisted a
  | (b, u) :: m, a => if b = a then u else Memory.read m a

/-- Put `v` in front, unless that is what the address reads as unlisted. -/
def Memory.put (a : Nat) (v : Byte) (m : Memory) : Memory :=
  if v = Memory.unlisted a then m else (a, v) :: m

/-- Write byte `v` at `a`, keeping the canonical form. Nothing else changes (R57). -/
def Memory.write : Memory → Nat → Byte → Memory
  | [], a, v => Memory.put a v []
  | (b, u) :: m, a, v =>
    if a < b then Memory.put a v ((b, u) :: m)
    else if b = a then Memory.put a v m
    else (b, u) :: Memory.write m a v

/-- Write bytes at consecutive addresses from `a`, in ascending order. -/
def Memory.writeBytes (m : Memory) (a : Nat) : List Byte → Memory
  | [] => m
  | b :: bs => Memory.writeBytes (m.write a b) (a + 1) bs

/-- Read `n` bytes at consecutive addresses from `a`. -/
def Memory.readBytes (m : Memory) (a n : Nat) : List Byte := (List.range n).map (fun k => m.read (a + k))

/-- Every listed address is above `lo`, they rise strictly and stay below `memSize`, and no listed byte has the value
its address reads as unlisted. -/
def Memory.wfFrom (lo : Nat) : Memory → Bool
  | [] => true
  | (a, v) :: m => lo ≤ a && a < memSize && v ≠ Memory.unlisted a && Memory.wfFrom (a + 1) m

/-- The canonical form of memory. -/
def Memory.wf (m : Memory) : Bool := Memory.wfFrom 0 m

/-- The first of the `n` addresses from `base` that does not exist, where the address is a natural number and nothing
wraps (R54, R205). -/
def badAddress (base n : Nat) : Option Nat := ((List.range n).map (base + ·)).find? (memSize ≤ ·)

/-! ## Faults (60_exceptions.md R201, R202) -/

/-- The code of the fault state; 0 is no fault (R202). -/
def FaultCause.code : Option FaultCause → Nat
  | none => 0
  | some (.fetchOutOfRange _) => 1
  | some (.decodeError _ _) => 2
  | some (.memOutOfRange _ _) => 3
  | some (.stackOverflow _ _) => 4
  | some (.keyIndexOutOfRange _ _) => 5

/-- The address of the faulting instruction, which every cause records (R202). -/
def FaultCause.address : FaultCause → Word
  | .fetchOutOfRange a => a
  | .decodeError _ a => a
  | .memOutOfRange _ a => a
  | .stackOverflow _ a => a
  | .keyIndexOutOfRange _ a => a

/-- TAKING A FAULT: from the state before the step, every part keeps its value, `halted` is set and the cause recorded
(R201). -/
def haltWith (c : FaultCause) (s : State) : State := { s with halted := true, fault := some c }

/-- `raise F` in the execute phase, where `pc = a + 2` (R100): the whole step is discarded, the fetch's advance of `pc`
included, and the fault is taken (R201). The cause records `a`. -/
def raise (cause : Word → FaultCause) (s : State) : Result :=
  .next (haltWith (cause (s.pc - 2)) { s with pc := s.pc - 2 })

/-! ## Fetch (20_memory.md R55) -/

/-- The two bytes of an instruction at `pc` exist (R203). -/
def canFetch (s : State) : Bool := s.pc.toNat + 1 < memSize

/-- The word at `pc`, big-endian, whatever the parity of `pc` (R51, R53). -/
def fetchWord (s : State) : Word := bigEndian (s.mem.read s.pc.toNat) (s.mem.read (s.pc.toNat + 1))

/-- Fetch's advance of `pc` (R55). -/
def advance (s : State) : State := { s with pc := s.pc + 2 }

/-! ## The stack (10_state.md R27) -/

/-- Write stack entry `k`, where it exists. -/
def setStackEntry (s : State) (k : Nat) (w : Word) : State :=
  if h : k < 16 then { s with stack := s.stack.set k w h } else s

/-- Stack entry `k`, where it exists. -/
def stackEntry (s : State) (k : Nat) : Option Word := s.stack[k]?

end Sys2Proof.Machine
end

