-- ==== Sys2Proof/Machine/Operands.lean ====
section
/-! DEFINITION. Operand access: the `V` registers, keys, and the operands that a parameter chooses. -/

namespace Sys2Proof.Machine

/-- `V[x]` (R12, R21). -/
def State.readV (s : State) (x : RegNum) : Byte := s.v[x.toNat]'x.isLt

/-- `V[x] <- b` (R12, R21). No register is hard-wired. -/
def State.writeV (s : State) (x : RegNum) (b : Byte) : State := { s with v := s.v.set x.toNat b x.isLt }

/-- `V[0], …, V[n-1]`, the registers FX55 stores (R184). -/
def State.firstRegs (s : State) (n : Nat) : List Byte := (List.range n).map (fun k => s.readV (BitVec.ofNat 4 k))

/-- Write the bytes to `V[k], V[k+1], …` in ascending order, as FX65 does (R185). -/
def State.loadRegs (s : State) (k : Nat) : List Byte → State
  | [] => s
  | b :: bs => (s.writeV (BitVec.ofNat 4 k) b).loadRegs (k + 1) bs

/-- The state of key `k`: `none` where there is no such key (R31). -/
def State.keyAt (s : State) (k : Nat) : Option Bool := s.key[k]?

/-- The lowest key that is down (R165). -/
def State.firstKeyDown (s : State) : Option Nat := (List.range numKeys).find? (fun k => s.keyAt k = some true)

/-- The value 8XY6 and 8XYE shift: `V[X]` or, under `ShiftSource = VY`, `V[Y]` (R129, R130). -/
def State.shiftOperand (s : State) (x y : RegNum) : Byte :=
  match s.config.shiftSource with
  | .vx => s.readV x
  | .vy => s.readV y

/-- The return address CALL stores: the `pc` the executor holds, which is `a + 2`, or under `CallLink = pre_fetch` the
address `a` of the CALL (R103). -/
def State.linkAddress (s : State) : Word :=
  match s.config.callLink with
  | .postFetch => s.pc
  | .preFetch => s.pc - 2

/-- The target of BNNN: the 16-bit sum, or under `JumpOffsetMask = mask12` its low 12 bits (R113). -/
def State.offsetTarget (s : State) (nnn : Word) : Word :=
  let t := (s.readV 0).setWidth 16 + nnn
  match s.config.jumpOffsetMask with
  | .none => t
  | .mask12 => t &&& 0x0FFF

/-- The column of DRW's origin: `V[X] mod 64` (R152). -/
def State.originX (s : State) (x : RegNum) : Nat := (s.readV x).toNat % 64

/-- The row of DRW's origin: `V[Y] mod DrawYWrap` (R152). -/
def State.originY (s : State) (y : RegNum) : Nat := (s.readV y).toNat % s.config.drawYWrap.modulus

end Sys2Proof.Machine
end

