-- ==== Sys2Proof/Machine/Flags.lean ====
section
/-! DEFINITION. The values instructions write to `VF` (41_alu.md R133). A flag is written after the result, so with
`X = F` it is what `VF` holds (R22, 92 D6). -/

namespace Sys2Proof.Machine

/-- `bool(c)`: 1 if the condition holds, else 0 (R12). -/
def flagByte (c : Bool) : Byte := if c then 1 else 0

/-- 8XY4: the 9-bit sum exceeds 255 (R126). -/
def carryFlag (x y : Byte) : Byte := flagByte (255 < x.toNat + y.toNat)

/-- 8XY5 and 8XY7: the minuend is above the subtrahend; equal operands give `SubFlagOnEqual` (R127, R128). -/
def noBorrowFlag (c : Config) (minuend subtrahend : Byte) : Byte :=
  if subtrahend.toNat < minuend.toNat then 1
  else if minuend = subtrahend then flagByte c.subFlagOnEqual
  else 0

/-- 8XY6: the bit shifted out, bit 0 (R129). -/
def shiftRightFlag (b : Byte) : Byte := flagByte (b.getLsbD 0)

/-- 8XYE: the bit shifted out, bit 7 (R130). -/
def shiftLeftFlag (b : Byte) : Byte := flagByte (b.getLsbD 7)

/-- Write the result to `V[X]` and then the flag to `VF`, in that order (R22, 92 D6). -/
def State.writeResultAndFlag (s : State) (x : RegNum) (result flag : Byte) : State :=
  (s.writeV x result).writeV VF flag

end Sys2Proof.Machine
end

