-- ==== Sys2Proof/Machine/Alu.lean ====
section
/-! DEFINITION. The register ALU (41_alu.md). Operands are read before any write (R13); none writes `pc`. -/

namespace Sys2Proof.Machine

/-- LD Vx, NN (R120). -/
def execLdImm (x : RegNum) (nn : Byte) (s : State) : Result := .next (s.writeV x nn)

/-- LD Vx, Vy (R121). -/
def execLdReg (x y : RegNum) (s : State) : Result := .next (s.writeV x (s.readV y))

/-- OR Vx, Vy (R122). -/
def execOrReg (x y : RegNum) (s : State) : Result := .next (s.writeV x (s.readV x ||| s.readV y))

/-- AND Vx, Vy (R123). -/
def execAndReg (x y : RegNum) (s : State) : Result := .next (s.writeV x (s.readV x &&& s.readV y))

/-- XOR Vx, Vy (R124). -/
def execXorReg (x y : RegNum) (s : State) : Result := .next (s.writeV x (s.readV x ^^^ s.readV y))

/-- ADD Vx, NN (R125): the sum wraps modulo 256 and no flag is written. -/
def execAddImm (x : RegNum) (nn : Byte) (s : State) : Result := .next (s.writeV x (s.readV x + nn))

/-- ADD Vx, Vy (R126). -/
def execAddReg (x y : RegNum) (s : State) : Result :=
  .next (s.writeResultAndFlag x (s.readV x + s.readV y) (carryFlag (s.readV x) (s.readV y)))

/-- SUB Vx, Vy (R127): `VX - VY`. -/
def execSub (x y : RegNum) (s : State) : Result :=
  .next (s.writeResultAndFlag x (s.readV x - s.readV y) (noBorrowFlag s.config (s.readV x) (s.readV y)))

/-- SUBN Vx, Vy (R128): `VY - VX`. -/
def execSubn (x y : RegNum) (s : State) : Result :=
  .next (s.writeResultAndFlag x (s.readV y - s.readV x) (noBorrowFlag s.config (s.readV y) (s.readV x)))

/-- SHR Vx {, Vy} (R129). -/
def execShr (x y : RegNum) (s : State) : Result :=
  .next (s.writeResultAndFlag x (s.shiftOperand x y >>> 1) (shiftRightFlag (s.shiftOperand x y)))

/-- SHL Vx {, Vy} (R130). -/
def execShl (x y : RegNum) (s : State) : Result :=
  .next (s.writeResultAndFlag x (s.shiftOperand x y <<< 1) (shiftLeftFlag (s.shiftOperand x y)))

/-- RND Vx, NN with the byte drawn for this step: `V[X] <- rand AND NN` (R131). -/
def rndWith (rand : Byte) (x : RegNum) (nn : Byte) (s : State) : State := s.writeV x (rand &&& nn)

/-- RND Vx, NN (R131): the byte is the free value of this draw, and the next draw is another (R35). -/
def execRnd (x : RegNum) (nn : Byte) (s : State) : Result :=
  .next { rndWith (Config.rand s.draws) x nn s with draws := s.draws + 1 }

end Sys2Proof.Machine
end

