-- ==== Sys2Proof/Machine/Display.lean ====
section
/-! DEFINITION. The display (42_display.md): clear, and the XOR blit with collision detection. -/

namespace Sys2Proof.Machine

/-- The cell at column `x` of row `y`: `none` outside the 64×32 frame (R30). -/
def Display.cell (d : Display) (x y : Nat) : Option Bool :=
  match d[y]? with
  | some row => row[x]?
  | none => none

/-- The cell is in the frame and lit. -/
def Display.lit (d : Display) (x y : Nat) : Bool := d.cell x y = some true

/-- XOR the cell with 1; nothing outside the frame (R152). -/
def Display.toggle (d : Display) (x y : Nat) : Display :=
  if h : x < 64 ∧ y < 32 then d.set y (d[y].set x (!d[y][x])) else d

/-- A display being drawn on, and whether a lit cell was turned dark so far. -/
structure Blit where
  disp : Display
  hit : Bool
deriving DecidableEq, Repr

/-- Draw one lit sprite pixel: it is dropped outside the frame, and inside it a cell that was lit is a collision
(R152). -/
def Blit.pixel (b : Blit) (x y : Nat) : Blit where
  disp := b.disp.toggle x y
  hit := b.hit || b.disp.lit x y

/-- Column offset `c` of a sprite row is bit `7 - c` of its byte: bit 7 is leftmost (R151). -/
def spriteBit (row : Byte) (c : Nat) : Bool := row.getLsbD (7 - c)

/-- Draw one row of a sprite with its left end at column `x0` of row `y` (R152). -/
def Blit.row (b : Blit) (x0 y : Nat) (row : Byte) : Blit :=
  (List.range 8).foldl (fun b c => if spriteBit row c then b.pixel (x0 + c) y else b) b

/-- Draw the rows of a sprite downwards from row `y` (R152). -/
def Blit.rows (b : Blit) (x0 y : Nat) : List Byte → Blit
  | [] => b
  | row :: rest => (b.row x0 y row).rows x0 (y + 1) rest

/-- CLS (R150). -/
def execCls (s : State) : Result := .next { s with disp := Display.dark }

/-- DRW Vx, Vy, N (R152): the sprite bytes are read, and their addresses checked, before any write; both coordinates
are read before `VF` is written (92 D5, D17). -/
def execDrw (x y : RegNum) (n : Nat) (s : State) : Result :=
  match badAddress s.index.toNat n with
  | some addr => raise (.memOutOfRange addr) s
  | none =>
    let drawn := Blit.rows ⟨s.disp, false⟩ (s.originX x) (s.originY y) (s.mem.readBytes s.index.toNat n)
    .next ({ s with disp := drawn.disp }.writeV VF (flagByte drawn.hit))

end Sys2Proof.Machine
end

