-- ==== Sys2Proof/Machine/IndexMemory.lean ====
section
/-! DEFINITION. The index register and memory instructions (44_index_memory.md). Every memory access is checked
before any write, and none changes `I` (R186). -/

namespace Sys2Proof.Machine

/-- LD I, NNN (R180). -/
def execLdI (nnn : Word) (s : State) : Result := .next { s with index := nnn }

/-- ADD I, Vx (R181): the sum wraps modulo 2^16 and no flag is written. -/
def execAddI (x : RegNum) (s : State) : Result := .next { s with index := s.index + (s.readV x).setWidth 16 }

/-- LD F, Vx (R182): glyph `V[X]` lies at 5 times its index. -/
def execLdF (x : RegNum) (s : State) : Result := .next { s with index := (s.readV x).setWidth 16 * 5 }

/-- The hundreds, tens and ones digits of a byte (R183). -/
def bcdDigits (b : Byte) : List Byte :=
  [BitVec.ofNat 8 (b.toNat / 100), BitVec.ofNat 8 (b.toNat / 10 % 10), BitVec.ofNat 8 (b.toNat % 10)]

/-- Store bytes from `I` upwards, all of them or, with a fault, none (R183, R184). -/
def storeAtIndex (bytes : List Byte) (s : State) : Result :=
  match badAddress s.index.toNat bytes.length with
  | some addr => raise (.memOutOfRange addr) s
  | none => .next { s with mem := s.mem.writeBytes s.index.toNat bytes }

/-- LD B, Vx (R183). -/
def execLdB (x : RegNum) (s : State) : Result := storeAtIndex (bcdDigits (s.readV x)) s

/-- LD [I], Vx (R184): `V0` to `VX`, inclusive. -/
def execStRegs (x : RegNum) (s : State) : Result := storeAtIndex (s.firstRegs (x.toNat + 1)) s

/-- LD Vx, [I] (R185): `V0` to `VX`, inclusive. -/
def execLdRegs (x : RegNum) (s : State) : Result :=
  match badAddress s.index.toNat (x.toNat + 1) with
  | some addr => raise (.memOutOfRange addr) s
  | none => .next (s.loadRegs 0 (s.mem.readBytes s.index.toNat (x.toNat + 1)))

end Sys2Proof.Machine
end

