-- ==== Sys2Proof/Machine/Control.lean ====
section
/-! DEFINITION. Control transfer (40_control.md). Every meaning runs with `pc = a + 2` (R100). -/

namespace Sys2Proof.Machine

/-- A skip: `pc` moves 2 more when the condition holds (R109). Its target is not checked. -/
def skipIf (c : Bool) (s : State) : State := if c then { s with pc := s.pc + 2 } else s

/-- RET (R101): `pc <- Stack[sp]`, and `sp` goes down unless it is 0. With `sp > 15`, which no session reaches (R26),
there is no entry to read and the model stops. -/
def execRet (s : State) : Result :=
  match stackEntry s s.sp.toNat with
  | some target => .next { s with pc := target, sp := if s.sp = 0 then 0 else s.sp - 1 }
  | none => .fault (.stackReadOutOfRange s.sp)

/-- JP NNN (R102). -/
def execJp (nnn : Word) (s : State) : Result := .next { s with pc := nnn }

/-- CALL NNN (R103): increment `sp`, then store the link. A 17th entry is needed and does not exist when `sp = 15`
(R104). -/
def execCall (nnn : Word) (s : State) : Result :=
  if stackDepth ≤ s.sp.toNat + 1 then raise (.stackOverflow (s.sp.toNat + 1)) s
  else .next { setStackEntry s (s.sp.toNat + 1) s.linkAddress with sp := s.sp + 1, pc := nnn }

/-- SE Vx, NN (R105). -/
def execSeImm (x : RegNum) (nn : Byte) (s : State) : Result := .next (skipIf (s.readV x = nn) s)

/-- SNE Vx, NN (R106). -/
def execSneImm (x : RegNum) (nn : Byte) (s : State) : Result := .next (skipIf (s.readV x ≠ nn) s)

/-- SE Vx, Vy (R107). -/
def execSeReg (x y : RegNum) (s : State) : Result := .next (skipIf (s.readV x = s.readV y) s)

/-- SNE Vx, Vy (R108). -/
def execSneReg (x y : RegNum) (s : State) : Result := .next (skipIf (s.readV x ≠ s.readV y) s)

/-- JP V0, NNN (R113). -/
def execJpV0 (nnn : Word) (s : State) : Result := .next { s with pc := s.offsetTarget nnn }

end Sys2Proof.Machine
end

