-- ==== Sys2Proof/Machine/KeysTimers.lean ====
section
/-! DEFINITION. Key tests, the key wait, timer transfers and the timer tick (43_keys_timers.md). -/

namespace Sys2Proof.Machine

/-- Skip when the key that `V[X]` names is in the given state. There are 16 keys, so an index above 15 faults
(R160, R161). -/
def skipOnKey (x : RegNum) (down : Bool) (s : State) : Result :=
  match s.keyAt (s.readV x).toNat with
  | some k => .next (skipIf (k = down) s)
  | none => raise (.keyIndexOutOfRange (s.readV x)) s

/-- SKP Vx (R160). -/
def execSkp (x : RegNum) (s : State) : Result := skipOnKey x true s

/-- SKNP Vx (R161). -/
def execSknp (x : RegNum) (s : State) : Result := skipOnKey x false s

/-- LD Vx, DT (R162). -/
def execLdVxDt (x : RegNum) (s : State) : Result := .next (s.writeV x s.dt)

/-- LD DT, Vx (R163). -/
def execLdDt (x : RegNum) (s : State) : Result := .next { s with dt := s.readV x }

/-- LD ST, Vx (R164). -/
def execLdSt (x : RegNum) (s : State) : Result := .next { s with st := s.readV x }

/-- LD Vx, K (R165): the lowest key that is down, or `pc` rewound to this instruction when none is. -/
def execLdVxK (x : RegNum) (s : State) : Result :=
  match s.firstKeyDown with
  | some k => .next (s.writeV x (BitVec.ofNat 8 k))
  | none => .next { s with pc := s.pc - 2 }

/-- One timer counts down, unless it is 0 (R172). -/
def countDown (b : Byte) : Byte := if b = 0 then 0 else b - 1

end Sys2Proof.Machine
end

