-- ==== Sys2Proof/Machine/HostOps.lean ====
section
/-! DEFINITION. The host's operations between steps (60_exceptions.md R215–R223), all but `step` and `create`. -/

namespace Sys2Proof.Machine

/-- `load_bytes` (R216): the bytes are copied verbatim from `addr`, or the whole load is refused. -/
def loadBytes (addr : Nat) (bytes : List Byte) (s : State) : Result :=
  if memSize < addr + bytes.length then .refused (.loadOutOfRange addr bytes.length)
  else .next { s with mem := s.mem.writeBytes addr bytes }

/-- `load_font` (R217): `FontTable` to addresses 0–79. -/
def loadFont (s : State) : State := { s with mem := s.mem.writeBytes 0 s.config.fontTable.toList }

/-- `start` (R221): `pc <- 0x200` and nothing else. -/
def start (s : State) : State := { s with pc := BitVec.ofNat 16 progBase }

/-- `set_key` (R218): `Key[k] <- down`, or refused where there is no key `k`. -/
def setKey (k : Nat) (down : Bool) (s : State) : Result :=
  if h : k < 16 then .next { s with key := s.key.set k down h } else .refused (.noSuchKey k)

/-- `tick` (R172): both timers count down; nothing else is read or written, halted or not. -/
def tick (s : State) : State := { s with dt := countDown s.dt, st := countDown s.st }

/-- `get_pixel` (R220): `Disp[y][x]`, or refused outside the display. -/
def getPixel (x y : Nat) (s : State) : Except Refusal Bool :=
  match s.disp.cell x y with
  | some lit => .ok lit
  | none => .error (.noSuchPixel x y)

/-- What `read_state` returns (R215). -/
structure StateView where
  v : Vector Byte 16
  index : Word
  pc : Word
  sp : Byte
  stack : Vector Word 16
  dt : Byte
  st : Byte
  mem : Memory
  halted : Bool
  fault : Option FaultCause
deriving DecidableEq, Repr

/-- `read_state` (R215, R223): reading changes nothing. -/
def readState (s : State) : StateView where
  v := s.v
  index := s.index
  pc := s.pc
  sp := s.sp
  stack := s.stack
  dt := s.dt
  st := s.st
  mem := s.mem
  halted := s.halted
  fault := s.fault

/-- `create` on a block that exists (R215, R230): a new Machine State with the same parameters. The random draws
go on from where they were, since a draw is never used twice (R131). -/
def recreate (s : State) : State := { State.create s.config with draws := s.draws }

/-- The boot sequence before the first step (R231): create, load the font, load the ROM at 0x200, start. -/
def boot (c : Config) (rom : List Byte) : Result :=
  match loadBytes progBase rom (loadFont (State.create c)) with
  | .next s => .next (start s)
  | .fault r => .fault r
  | .refused r => .refused r

/-- The state made able to fetch: not halted, and with `pc` at 0x200 where the bytes at `pc` do not exist. -/
def readyToFetch (s : State) : State :=
  { s with halted := false, fault := none, pc := if canFetch s then s.pc else BitVec.ofNat 16 progBase }

/-- Store a word where the next fetch reads it (R51). -/
def placeWord (w : Word) (s : State) : State := { s with mem := s.mem.writeBytes s.pc.toNat (wordBytes w) }

end Sys2Proof.Machine
end

