-- ==== Sys2Proof/Machine/Step.lean ====
section
/-! DEFINITION. One step of the block (60_exceptions.md R224): fetch, decode, execute, atomically (R56, R210). -/

namespace Sys2Proof.Machine

/-- `step` (R224). A halted block does nothing. The checks run in the order of R205: fetch, then decode, then the
instruction's own. -/
def step (s : State) : Host.Outcome State Fault Refusal :=
  if s.halted then .next s
  else if canFetch s then
    match decodeWord s.config.strictDecode (fetchWord s) with
    | .ok i => exec i (advance s)
    | .error _ => .next (haltWith (.decodeError (fetchWord s) s.pc) s)
  else .next (haltWith (.fetchOutOfRange s.pc) s)

/-- The state with the instruction word `w` of `nbits` bits where the next step fetches it. -/
def State.withFetchWord (s : State) (nbits w : Nat) : State :=
  match tableWord nbits w with
  | some word => placeWord word (readyToFetch s)
  | none => s

end Sys2Proof.Machine
end

