-- ==== Sys2Proof/Machine/Session.lean ====
section
/-! DEFINITION. The host's commands (60_exceptions.md R215) as one type, and what each does to the state. -/

namespace Sys2Proof.Machine

/-- The host's operations, the table of R215. -/
inductive Command where
  | create
  | loadFont
  | loadBytes (addr : Nat) (bytes : List Byte)
  | start
  | step
  | setKey (k : Nat) (down : Bool)
  | tick
  | getPixel (x y : Nat)
  | readState
deriving DecidableEq, Repr

/-- The effect of a command, between two steps (R210, R215). The two reads change nothing (R223); what they answer is
`getPixel` and `readState`. -/
def runCommand (c : Command) (s : State) : Result :=
  match c with
  | .create => .next (recreate s)
  | .loadFont => .next (loadFont s)
  | .loadBytes addr bytes => loadBytes addr bytes s
  | .start => .next (start s)
  | .step => step s
  | .setKey k down => setKey k down s
  | .tick => .next (tick s)
  | .getPixel x y =>
    match getPixel x y s with
    | .ok _ => .next s
    | .error r => .refused r
  | .readState => .next s

/-- Commands one after another, in the order the host gives them: steps and host operations, interleaved (R210, R231). A
refused command writes nothing (R216, R218), and the session goes on. -/
def runCommands : List Command → State → Result
  | [], s => .next s
  | c :: cs, s =>
    match runCommand c s with
    | .next t => runCommands cs t
    | .refused _ => runCommands cs s
    | .fault r => .fault r

/-- `n` steps in a row, stopping at the first stop of the model. -/
def stepN : Nat → State → Result
  | 0, s => .next s
  | n + 1, s =>
    match step s with
    | .next t => stepN n t
    | .fault r => .fault r
    | .refused r => .refused r

end Sys2Proof.Machine
end

