-- ==== Sys2Proof/Safety.lean ====
section
/-! DEFINITION. The terms claims use: the invariant, sessions, when a step raises a fault (60_exceptions.md R202), the end
of a run (70_reset_and_hazards.md R240), and what an instruction leaves alone. -/

namespace Sys2Proof.Machine

/-- What holds in every state of a session: memory is canonical; `sp` stays below 16 (R26); `Stack[0]` is never written
(R27); every return address, and `pc`, stays in the range the control rules allow (R24); `halted` and `fault` agree
(R32). -/
structure State.Inv (s : State) : Prop where
  memCanonical : s.mem.wf = true
  spInRange : s.sp.toNat ≤ 15
  stackZero : s.stack[0] = 0
  linksInRange : ∀ k (h : k < 16), s.stack[k].toNat ≤ 0x1000
  pcInRange : s.pc.toNat ≤ 0x10FE
  faultAgrees : s.halted = s.fault.isSome

/-- The states of a session: those that host commands lead to from creation with the parameters `c` (R210, R231). -/
inductive Session (c : Config) : State → Prop where
  | created : Session c (State.create c)
  | command {s t : State} (cmd : Command) : Session c s → runCommand cmd s = .next t → Session c t

/-- The next step fetches and decodes `i` (R55, R82). -/
def Fetches (s : State) (i : Instr) : Prop :=
  s.pc.toNat + 1 < memSize ∧ decodeWord s.config.strictDecode (fetchWord s) = .ok i

/-- The decoder answers an instruction for the word (R81). -/
def decodes (strict : Bool) (w : Word) : Bool :=
  match decodeWord strict w with
  | .ok _ => true
  | .error _ => false

/-- How many bytes from `I` upwards the instruction reads or writes (R50). -/
def dataBytes : Instr → Nat
  | .drw _ _ n => n
  | .ldB _ => 3
  | .stRegs x | .ldRegs x => x.toNat + 1
  | .cls | .ret | .jp _ | .call _ | .ldI _ | .jpV0 _ => 0
  | .seImm _ _ | .sneImm _ _ | .ldImm _ _ | .addImm _ _ | .rnd _ _ => 0
  | .seReg _ _ | .sneReg _ _ | .ldReg _ _ | .orReg _ _ | .andReg _ _ | .xorReg _ _ => 0
  | .addReg _ _ | .sub _ _ | .shr _ _ | .subn _ _ | .shl _ _ => 0
  | .skp _ | .sknp _ | .ldVxDt _ | .ldVxK _ | .ldDt _ | .ldSt _ | .addI _ | .ldF _ => 0

/-- The address is the lowest of the `n` from `base` that is 4096 or more (R202, R205). -/
def LowestBadAddress (base n addr : Nat) : Prop :=
  base ≤ addr ∧ addr < base + n ∧ memSize ≤ addr ∧ ∀ b, base ≤ b → b < addr → b < memSize

/-- The table of R202: the condition under which a step of a block that is not halted raises each cause. -/
inductive RaisesFault (s : State) : FaultCause → Prop where
  /-- Code 1. -/
  | fetch : memSize ≤ s.pc.toNat + 1 → RaisesFault s (.fetchOutOfRange s.pc)
  /-- Code 2. -/
  | decode : s.pc.toNat + 1 < memSize → legalWord s.config.strictDecode (fetchWord s) = false →
      RaisesFault s (.decodeError (fetchWord s) s.pc)
  /-- Code 3. -/
  | memory (i : Instr) (addr : Nat) : Fetches s i → LowestBadAddress s.index.toNat (dataBytes i) addr →
      RaisesFault s (.memOutOfRange addr s.pc)
  /-- Code 4. -/
  | stack (nnn : Word) : Fetches s (.call nnn) → s.sp.toNat = 15 → RaisesFault s (.stackOverflow 16 s.pc)
  /-- Code 5. -/
  | key (x : RegNum) : Fetches s (.skp x) ∨ Fetches s (.sknp x) → 15 < (s.readV x).toNat →
      RaisesFault s (.keyIndexOutOfRange (s.readV x) s.pc)

/-- The cause with its other info, recorded for an instruction at `a` (R202). -/
def FaultCause.withAddress (a : Word) : FaultCause → FaultCause
  | .fetchOutOfRange _ => .fetchOutOfRange a
  | .decodeError w _ => .decodeError w a
  | .memOutOfRange addr _ => .memOutOfRange addr a
  | .stackOverflow s _ => .stackOverflow s a
  | .keyIndexOutOfRange k _ => .keyIndexOutOfRange k a

/-- The fault record with the address it names set to 0: what of it says nothing of `pc`. -/
def State.faultWithoutAddress (s : State) : Option FaultCause := s.fault.map (FaultCause.withAddress 0)

/-- The end of a run (R240): not halted, and the word at `pc` is a jump to itself. -/
def State.atEnd (s : State) : Prop :=
  s.halted = false ∧ s.pc.toNat + 1 < memSize ∧ fetchWord s = wordNNN 0x1 s.pc

/-- The run from `s` in which the host gives the commands `cs` ends in `t` (R240): `t` is the first state at the end that
the commands, steps and host operations interleaved (R210, R231), reach. A new creation starts another run (R230). -/
def RunEnds (cs : List Command) (s t : State) : Prop :=
  .create ∉ cs ∧ ∃ n, runCommands (cs.take n) s = .next t ∧ t.atEnd ∧
    ∀ m u, m < n → runCommands (cs.take m) s = .next u → ¬ u.atEnd

/-- The commands that leave memory and `pc` to the program: all but a new creation, the loaders and `start` (R215). -/
def Command.keepsProgram : Command → Bool
  | .step | .setKey _ _ | .tick | .getPixel _ _ | .readState => true
  | .create | .loadFont | .loadBytes _ _ | .start => false

/-- The pixel at column `px` of row `py` is a 1 bit of the sprite `bytes` drawn with its origin at column `x0` of
row `y0`: bit 7 of a byte is its leftmost pixel (R151). -/
def spriteCovers (bytes : List Byte) (x0 y0 px py : Nat) : Prop :=
  x0 ≤ px ∧ px < x0 + 8 ∧ y0 ≤ py ∧ ∃ row, bytes[py - y0]? = some row ∧ row.getLsbD (7 - (px - x0)) = true

/-- Every `V` register but those listed keeps its value. -/
def KeepsRegs (s t : State) (written : List RegNum) : Prop := ∀ r, r ∉ written → t.readV r = s.readV r

/-- Every byte of memory reads as before. -/
def KeepsMemory (s t : State) : Prop := ∀ a, t.mem.read a = s.mem.read a

/-- Every byte of memory outside the `n` from `base` reads as before. -/
def KeepsMemoryOutside (s t : State) (base n : Nat) : Prop :=
  ∀ a, a < base ∨ base + n ≤ a → t.mem.read a = s.mem.read a

/-- The word decodes to the instruction, whatever `StrictDecode` is. -/
def Encodes (w : Word) (i : Instr) : Prop := ∀ strict, decodeWord strict w = .ok i

/-- The `V` registers an instruction may write: its destination, and `VF` where it writes a flag (R22). -/
def destRegs : Instr → List RegNum
  | .ldImm x _ | .addImm x _ | .rnd x _ | .ldVxDt x | .ldVxK x => [x]
  | .ldReg x _ | .orReg x _ | .andReg x _ | .xorReg x _ => [x]
  | .addReg x _ | .sub x _ | .shr x _ | .subn x _ | .shl x _ => [x, VF]
  | .drw _ _ _ => [VF]
  | .ldRegs x => (List.range (x.toNat + 1)).map (BitVec.ofNat 4)
  | .cls | .ret | .jp _ | .call _ | .ldI _ | .jpV0 _ => []
  | .seImm _ _ | .sneImm _ _ | .seReg _ _ | .sneReg _ _ | .skp _ | .sknp _ => []
  | .ldDt _ | .ldSt _ | .addI _ | .ldF _ | .ldB _ | .stRegs _ => []

/-- The `V` registers an instruction reads: those its rule names as operands (R23). The shifts read the one `ShiftSource`
names (R129, R130). -/
def sourceRegs (c : Config) : Instr → List RegNum
  | .seImm x _ | .sneImm x _ | .addImm x _ => [x]
  | .seReg x y | .sneReg x y | .drw x y _ => [x, y]
  | .orReg x y | .andReg x y | .xorReg x y | .addReg x y | .sub x y | .subn x y => [x, y]
  | .ldReg _ y => [y]
  | .shr x y | .shl x y =>
    match c.shiftSource with
    | .vx => [x]
    | .vy => [y]
  | .skp x | .sknp x | .ldDt x | .ldSt x | .addI x | .ldF x | .ldB x => [x]
  | .stRegs x => (List.range (x.toNat + 1)).map (BitVec.ofNat 4)
  | .jpV0 _ => [0]
  | .cls | .ret | .jp _ | .call _ | .ldI _ | .ldImm _ _ | .rnd _ _ | .ldVxDt _ | .ldVxK _ | .ldRegs _ => []

/-- The instructions that write `pc`: jumps, skips, CALL, RET and FX0A (R20, R100). -/
def movesPc : Instr → Bool
  | .ret | .jp _ | .call _ | .jpV0 _ | .ldVxK _ => true
  | .seImm _ _ | .sneImm _ _ | .seReg _ _ | .sneReg _ _ | .skp _ | .sknp _ => true
  | .cls | .ldImm _ _ | .addImm _ _ | .rnd _ _ | .ldI _ | .drw _ _ _ => false
  | .ldReg _ _ | .orReg _ _ | .andReg _ _ | .xorReg _ _ => false
  | .addReg _ _ | .sub _ _ | .shr _ _ | .subn _ _ | .shl _ _ => false
  | .ldVxDt _ | .ldDt _ | .ldSt _ | .addI _ | .ldF _ | .ldB _ | .stRegs _ | .ldRegs _ => false

/-- The instructions that can raise a fault when they execute, the column "raised by" of R202. -/
def canFault : Instr → Bool
  | .drw _ _ _ | .ldB _ | .stRegs _ | .ldRegs _ | .call _ | .skp _ | .sknp _ => true
  | .cls | .ret | .jp _ | .jpV0 _ | .ldVxK _ | .seImm _ _ | .sneImm _ _ | .seReg _ _ | .sneReg _ _ => false
  | .ldImm _ _ | .addImm _ _ | .rnd _ _ | .ldI _ | .ldReg _ _ | .orReg _ _ | .andReg _ _ | .xorReg _ _ => false
  | .addReg _ _ | .sub _ _ | .shr _ _ | .subn _ _ | .shl _ _ | .ldVxDt _ | .ldDt _ | .ldSt _ | .addI _ | .ldF _ => false

/-- Execute instructions one after another, each with the `pc` the last one left. -/
def execAll : List Instr → State → Result
  | [], s => .next s
  | i :: is, s =>
    match exec i s with
    | .next t => execAll is t
    | .fault r => .fault r
    | .refused r => .refused r

/-- Apply `f` to the next state an outcome holds. -/
def mapNext (f : State → State) : Result → Result
  | .next s => .next (f s)
  | .fault r => .fault r
  | .refused r => .refused r

end Sys2Proof.Machine
end

