-- ==== Sys2Proof/Certificates/Slice0/Obligations.lean ====
section
/-! DEFINITION. The statements for the provers. Unless a docstring says otherwise, each formalises the rules it names.
`s` is the state the executor starts from, with `pc = a + 2` (R100); a raised fault puts `pc` back to `a` (R201). -/

open Sys2Proof Sys2Proof.Machine

/-! ## Helpers of the statements -/

/-- The word with register fields X and Y over the fixed bits `base` (R14, R70). -/
def Sys2Proof.xyWord (base : Nat) (x y : RegNum) : Word := BitVec.ofNat 16 (base + 256 * x.toNat + 16 * y.toNat)

/-- The word with register field X and low byte NN over the fixed bits `base` (R14, R70). -/
def Sys2Proof.xnnWord (base : Nat) (x : RegNum) (nn : Byte) : Word := BitVec.ofNat 16 (base + 256 * x.toNat + nn.toNat)

/-- The word with register field X over the fixed bits `base` (R14, R70). -/
def Sys2Proof.xWord (base : Nat) (x : RegNum) : Word := BitVec.ofNat 16 (base + 256 * x.toNat)

/-- The word with address field NNN over the fixed bits `base` (R14, R70). -/
def Sys2Proof.nnnWord (base : Nat) (nnn : Word) : Word := BitVec.ofNat 16 (base + nnn.toNat)

/-- The bytes of the glyphs 0 to F, from the table of R33 (general knowledge, log entry 8). -/
def Sys2Proof.fontGlyphs : List Byte :=
  [0xF0, 0x90, 0x90, 0x90, 0xF0] ++ [0x20, 0x60, 0x20, 0x20, 0x70] ++ [0xF0, 0x10, 0xF0, 0x80, 0xF0] ++
  [0xF0, 0x10, 0xF0, 0x10, 0xF0] ++ [0x90, 0x90, 0xF0, 0x10, 0x10] ++ [0xF0, 0x80, 0xF0, 0x10, 0xF0] ++
  [0xF0, 0x80, 0xF0, 0x90, 0xF0] ++ [0xF0, 0x10, 0x20, 0x40, 0x40] ++ [0xF0, 0x90, 0xF0, 0x90, 0xF0] ++
  [0xF0, 0x90, 0xF0, 0x10, 0xF0] ++ [0xF0, 0x90, 0xF0, 0x90, 0x90] ++ [0xE0, 0x90, 0xE0, 0x90, 0xE0] ++
  [0xF0, 0x80, 0x80, 0x80, 0xF0] ++ [0xE0, 0x90, 0x90, 0x90, 0xE0] ++ [0xF0, 0x80, 0xF0, 0x80, 0xF0] ++
  [0xF0, 0x80, 0xF0, 0x80, 0x80]

/-- The instruction goes on, writes the byte to `V[x]`, and changes nothing else. -/
def Sys2Proof.Machine.WritesRegister (i : Instr) (s : State) (x : RegNum) (result : Byte) : Prop :=
  ∃ t, exec i s = .next t ∧ t.readV x = result ∧ t = { s with v := t.v } ∧ KeepsRegs s t [x] ∧ KeepsMemory s t

/-- The instruction goes on, writes the result to `V[x]` and then the flag to `VF`, and changes nothing else. -/
def Sys2Proof.Machine.WritesResultAndFlag (i : Instr) (s : State) (x : RegNum) (result flag : Byte) : Prop :=
  ∃ t, exec i s = .next t ∧ (x ≠ VF → t.readV x = result) ∧ t.readV VF = flag ∧ t = { s with v := t.v } ∧
    KeepsRegs s t [x, VF] ∧ KeepsMemory s t

/-- The step is discarded and the fault recorded: `pc` is back at the instruction's address, and nothing else changes
but `halted` and `fault` (R201). -/
def Sys2Proof.Machine.Raises (i : Instr) (s : State) (cause : Word → FaultCause) : Prop :=
  exec i s = .next { s with pc := s.pc - 2, halted := true, fault := some (cause (s.pc - 2)) }

/-- Where the instruction leaves `pc` so that its next fetch would read past memory, that fetch faults (R109, R203). -/
def Sys2Proof.Machine.NextFetchFaultsPastMemory (i : Instr) (s : State) : Prop :=
  ∀ t, s.halted = false → exec i s = .next t → memSize ≤ t.pc.toNat + 1 →
    step t = .next { t with halted := true, fault := some (.fetchOutOfRange t.pc) }

/-- The pixel lies under the sprite of `n` bytes at `I` that DRW draws from the wrapped origin that `V[x]` and `V[y]` give
(R151, R152). -/
def Sys2Proof.Machine.DrawCovers (s : State) (x y : RegNum) (n px py : Nat) : Prop :=
  spriteCovers ((List.range n).map (fun r => s.mem.read (s.index.toNat + r))) ((s.readV x).toNat % 64)
    ((s.readV y).toNat % (if s.config.drawYWrap = .mod64 then 64 else 32)) px py

/-! ## Encoding and decoding -/

/-- Derived from R70, R72, R75 and R82: for every well-formed instruction, under either value of `StrictDecode`, decoding
its bytes gives it back with every operand, and leaves the bytes after it. -/
def Obligations.DecodingAnEncodedInstructionGivesItBack : Prop :=
  ∀ (i : Instr) (strict : Bool) (rest : List Byte), i.wellFormed = true →
    decode strict (encodeBytes i ++ rest) = .ok (i, rest)

/-- Derived from R75 and R80: under `StrictDecode = true` each legal word is the encoding of one instruction only. -/
def Obligations.StrictDecodingIsInvertedByEncoding : Prop :=
  ∀ (w : Word) (i : Instr), decodeWord true w = .ok i → i.wellFormed = true ∧ encode i = w

/-- Derived from R75, R80 and R82: under `StrictDecode = false` a word that matches a row decodes to the instruction whose
encoding it is once its don't-care bits are cleared, the one the cleared word decodes to under `StrictDecode = true`; so
0x0XE0 and 0x0XEE are CLS and RET for any X, and 0x5XYN and 0x9XYN the compares of X and Y for any N. -/
def Obligations.LaxDecodingIgnoresTheDontCareBits : Prop :=
  (∀ r ∈ opcodeTable, ∀ w : Word, w &&& r.maskLax = r.matchBits →
    ∃ i, decodeWord false w = .ok i ∧ decodeWord true (w &&& ~~~(r.mask ^^^ r.maskLax)) = .ok i ∧
      encode i = w &&& ~~~(r.mask ^^^ r.maskLax)) ∧
  ∀ (x y : RegNum) (n : BitVec 4),
    decodeWord false (xnnWord 0x0000 x 0xE0) = .ok .cls ∧ decodeWord false (xnnWord 0x0000 x 0xEE) = .ok .ret ∧
    decodeWord false (xyWord (0x5000 + n.toNat) x y) = .ok (.seReg x y) ∧
    decodeWord false (xyWord (0x9000 + n.toNat) x y) = .ok (.sneReg x y)

/-- Derived from R75 to R81 and R204: a word that matches no row of the opcode map under the `StrictDecode` in force is
illegal, every other word decodes; and a step of a block that is not halted and fetches an illegal word raises
`DecodeError(w, a)`. -/
def Obligations.IllegalWordsAreThoseThatMatchNoRow : Prop :=
  (∀ strict w, (∃ i, decodeWord strict w = .ok i) ↔ ∃ r ∈ opcodeTable, w &&& r.maskUnder strict = r.matchBits) ∧
  (∀ s : State, s.halted = false → s.pc.toNat + 1 < memSize →
    (¬ ∃ r ∈ opcodeTable, fetchWord s &&& r.maskUnder s.config.strictDecode = r.matchBits) →
    step s = .next { s with halted := true, fault := some (.decodeError (fetchWord s) s.pc) })

/-- Derived from R75 to R81: the counts of legal words, out of 65 536, are those R81 derives from the opcode map, under
either value of `StrictDecode`. -/
def Obligations.LegalWordsAreCountedAsTheSpecSays : Prop :=
  (List.range 65536).countP (fun n => decodes true (BitVec.ofNat 16 n)) = 43954 ∧
  (List.range 65536).countP (fun n => decodes false (BitVec.ofNat 16 n)) = 51664

/-- Derived from R75: no word matches two rows of the opcode map, under either value of `StrictDecode`. -/
def Obligations.NoWordMatchesTwoRows : Prop :=
  ∀ (strict : Bool) (w : Word) (j k : Nat) (hj : j < opcodeTable.length) (hk : k < opcodeTable.length),
    opcodeTable[j].matchesWord strict w = true → opcodeTable[k].matchesWord strict w = true → j = k

/-- Derived from R75, R77, R80 and R83: the four decode examples of the source, and words of other families written out
from the patterns of the opcode map, decode to their instructions; two illegal words do not decode. -/
def Obligations.SampleWordsDecodeAsDocumented : Prop :=
  decodeTableWord 16 0x00E0 = some .cls ∧ decodeTableWord 16 0x1ABC = some (.jp 0xABC) ∧
  decodeTableWord 16 0x8AB4 = some (.addReg 0xA 0xB) ∧ decodeTableWord 16 0xF165 = some (.ldRegs 1) ∧
  decodeTableWord 16 0b0010001000010000 = some (.call 0x210) ∧
  decodeTableWord 16 0b0101000100100000 = some (.seReg 1 2) ∧
  decodeTableWord 16 0b1101000000010101 = some (.drw 0 1 5) ∧
  decodeTableWord 16 0b1110010110011110 = some (.skp 5) ∧
  decodeTableWord 16 0x5121 = none ∧ decodeTableWord 16 0x8AB8 = none

/-! ## One step -/

/-- Derived from R51, R55, R100 and R224: when the two bytes at `pc`, the one at the lower address first, decode to
`i`, a step of a block that is not halted is the executor's on `i`, with `pc` moved past the word. -/
def Obligations.StepRunsTheDecodedInstruction : Prop :=
  ∀ (s : State) (i : Instr), s.halted = false → s.pc.toNat + 1 < memSize →
    decode s.config.strictDecode [s.mem.read s.pc.toNat, s.mem.read (s.pc.toNat + 1)] = .ok (i, []) →
    step s = exec i { s with pc := s.pc + 2 }

/-- Derived from R53, R54, R203 and R224: a step of a block that is not halted raises `FetchOutOfRange`, with `pc`, exactly when
`pc` is 4095 or more, so at no odd `pc` below that; a halted block does nothing. -/
def Obligations.FetchFaultsPastMemoryAndHaltedBlocksStay : Prop :=
  ∀ s : State,
    (s.halted = false → memSize ≤ s.pc.toNat + 1 →
      step s = .next { s with halted := true, fault := some (.fetchOutOfRange s.pc) }) ∧
    (s.halted = false → s.pc.toNat + 1 < memSize →
      ∀ t a, step s = .next t → t.halted = true → t.fault ≠ some (.fetchOutOfRange a)) ∧
    (s.halted = true → step s = .next s)

/-- R201: a step that raises a fault leaves every part of the state as it was before the step and records the cause, which
names the instruction's address `pc`; the block takes no further step; and that state is no end of a run. -/
def Obligations.FaultingStepIsDiscarded : Prop :=
  ∀ s t : State, s.halted = false → step s = .next t → t.halted = true →
    (∃ c : FaultCause, t = { s with halted := true, fault := some c } ∧ c.address = s.pc) ∧
      (∀ n, stepN n t = .next t) ∧ ¬ t.atEnd

/-- Derived from R32, R42 and R210: once a fault is recorded, no host command but a new creation clears it or changes
it; and only a step records one. -/
def Obligations.OnlyCreationClearsTheFaultState : Prop :=
  ∀ (cmd : Command) (s t : State), runCommand cmd s = .next t → cmd ≠ .create →
    (s.halted = true ∨ cmd ≠ .step → t.halted = s.halted ∧ t.fault = s.fault)

/-- Derived from R202 and R205: in a state of the invariant, a step raises a cause exactly under the condition the table
of R202 gives it, and so at most one. -/
def Obligations.StepRaisesExactlyTheListedFaults : Prop :=
  ∀ (s : State) (c : FaultCause), s.Inv → s.halted = false →
    ((∃ t, step s = .next t ∧ t.halted = true ∧ t.fault = some c) ↔ RaisesFault s c)

/-- Derived from R26, R101, R202 and log entry 3 (the model's choice): a step answers a next state but in one case,
RET with `sp > 15`, where the model stops; and the invariant rules that case out. -/
def Obligations.StepAnswersNextUnlessReturnReadsPastTheStack : Prop :=
  ∀ s : State,
    ((∃ t, step s = .next t) ∨
      (s.halted = false ∧ Fetches s .ret ∧ 15 < s.sp.toNat ∧ step s = .fault (.stackReadOutOfRange s.sp))) ∧
    (s.Inv → ∃ t, step s = .next t)

/-! ## Invariants -/

/-- Derived from R24, R26, R27, R32 and R57: every step keeps the invariant: canonical memory, `sp <= 15`, `Stack[0] =
0`, return addresses and `pc` in range, and `halted` in agreement with `fault`. -/
def Obligations.StepKeepsTheInvariant : Prop :=
  ∀ s t : State, s.Inv → step s = .next t → t.Inv

/-- Derived from R40 and R230: the state after reset meets the invariant, whatever the parameters. -/
def Obligations.ResetMeetsTheInvariant : Prop :=
  State.reset.Inv ∧ ∀ c : Config, (State.create c).Inv

/-- Derived from R26, R27, R36 and R210: in every state of a session, whatever host commands are interleaved with
steps, the invariant holds and the parameters are those of the creation. -/
def Obligations.SessionsKeepTheInvariantAndTheParameters : Prop :=
  ∀ (c : Config) (s : State), Session c s → s.Inv ∧ s.config = c

/-! ## Who writes and who reads each part of the state -/

/-- Derived from R20 (the column "written by"), R22, R25, R30, R31, R36, R186 and R202: an instruction that goes on to a next
state changes memory only if it is FX33 or FX55, the display only if 00E0 or DXYN, `I` only if ANNN, FX1E or FX29, `sp` only if
CALL or RET, the stack only if CALL, `DT` only if FX15, `ST` only if FX18, a `V` register only if it is its destination, and
never the keys or the parameters; it moves `pc` from `a + 2` only if it is a jump, a skip, CALL, RET or FX0A; and it changes
`halted` and `fault` only by raising a fault, which only the instructions R202 lists do. The draw counter, the model's own field
(log entry 2, for R35 and R131), changes only if it is CXNN. -/
def Obligations.EachPartIsWrittenOnlyByItsInstructions : Prop :=
  ∀ (i : Instr) (s t : State), exec i s = .next t →
    ((∀ x, i ≠ .ldB x) → (∀ x, i ≠ .stRegs x) → t.mem = s.mem ∧ KeepsMemory s t) ∧
    (i ≠ .cls → (∀ x y n, i ≠ .drw x y n) → t.disp = s.disp) ∧
    ((∀ nnn, i ≠ .ldI nnn) → (∀ x, i ≠ .addI x) → (∀ x, i ≠ .ldF x) → t.index = s.index) ∧
    ((∀ nnn, i ≠ .call nnn) → i ≠ .ret → t.sp = s.sp) ∧
    ((∀ nnn, i ≠ .call nnn) → t.stack = s.stack) ∧
    ((∀ x, i ≠ .ldDt x) → t.dt = s.dt) ∧
    ((∀ x, i ≠ .ldSt x) → t.st = s.st) ∧
    ((∀ x nn, i ≠ .rnd x nn) → t.draws = s.draws) ∧
    t.key = s.key ∧ t.config = s.config ∧ KeepsRegs s t (destRegs i) ∧
    ((t.halted = s.halted ∧ t.fault = s.fault ∧ (movesPc i = false → t.pc = s.pc)) ∨
      (canFault i = true ∧ ∃ c : FaultCause, c.address = s.pc - 2 ∧
        t = { s with pc := s.pc - 2, halted := true, fault := some c }))

/-- Derived from R22 and R100: an instruction writes no `V` register but its destination, `VF` where it writes a flag,
and `V0` to `VX` for FX65; and where it raises no fault, it leaves `pc` at `a + 2` unless it is a jump, a call, a
return, a skip or the key wait. -/
def Obligations.OnlyDestinationsAndControlTransfersWriteRegistersAndPc : Prop :=
  ∀ (i : Instr) (s t : State), exec i s = .next t →
    KeepsRegs s t (destRegs i) ∧
    (s.halted = false → t.halted = false → t.pc ≠ s.pc →
      i = .ret ∨ (∃ nnn, i = .jp nnn ∨ i = .call nnn ∨ i = .jpV0 nnn) ∨
        (∃ x nn, i = .seImm x nn ∨ i = .sneImm x nn) ∨ (∃ x y, i = .seReg x y ∨ i = .sneReg x y) ∨
        ∃ x, i = .skp x ∨ i = .sknp x ∨ i = .ldVxK x)

/-- Derived from R20 (the column "read by"), R29 and R31: no instruction reads `ST`; only FX07 reads `DT`; only EX9E, EXA1 and
FX0A read the keys; only DXYN reads the display; only RET reads the stack. Only CXNN reads the draw counter, the model's own
field (log entry 2, for R35 and R224). Changing such a part beforehand changes nothing but that part afterwards (for CALL, which
writes one stack entry, nothing but the stack). The other parts of R20 have the three statements after this one. -/
def Obligations.TimersKeysDisplayStackAndDrawsAreReadOnlyByTheirInstructions : Prop :=
  ∀ (i : Instr) (s : State),
    (∀ b, exec i { s with st := b } =
      mapNext (fun t => if (∃ x, i = .ldSt x) then t else { t with st := b }) (exec i s)) ∧
    (∀ b, (∀ x, i ≠ .ldVxDt x) → exec i { s with dt := b } =
      mapNext (fun t => if (∃ x, i = .ldDt x) then t else { t with dt := b }) (exec i s)) ∧
    (∀ k, (∀ x, i ≠ .skp x) → (∀ x, i ≠ .sknp x) → (∀ x, i ≠ .ldVxK x) →
      exec i { s with key := k } = mapNext (fun t => { t with key := k }) (exec i s)) ∧
    (∀ d, (∀ x y n, i ≠ .drw x y n) → exec i { s with disp := d } =
      mapNext (fun t => if i = .cls then t else { t with disp := d }) (exec i s)) ∧
    (∀ k, i ≠ .ret → (∀ nnn, i ≠ .call nnn) →
      exec i { s with stack := k } = mapNext (fun t => { t with stack := k }) (exec i s)) ∧
    (∀ k, i ≠ .ret → mapNext (fun t => { t with stack := s.stack }) (exec i { s with stack := k }) =
      mapNext (fun t => { t with stack := s.stack }) (exec i s)) ∧
    (∀ n, (∀ x nn, i ≠ .rnd x nn) →
      exec i { s with draws := n } = mapNext (fun t => { t with draws := n }) (exec i s))

/-- Derived from R20 (the column "read by"), R25 and R50: only DXYN and FX65 read memory when they execute; only DXYN, FX1E,
FX33, FX55 and FX65 read `I`; only CALL and RET read `sp`. Changing such a part beforehand changes nothing but that part
afterwards (for FX33 and FX55, which write bytes of memory, nothing but memory). -/
def Obligations.MemoryIndexAndStackPointerAreReadOnlyByTheirInstructions : Prop :=
  ∀ (i : Instr) (s : State),
    (∀ m, (∀ x y n, i ≠ .drw x y n) → (∀ x, i ≠ .ldRegs x) →
      mapNext (fun t => { t with mem := s.mem }) (exec i { s with mem := m }) =
        mapNext (fun t => { t with mem := s.mem }) (exec i s)) ∧
    (∀ m, (∀ x, i ≠ .ldB x) → (∀ x, i ≠ .stRegs x) → (∀ x y n, i ≠ .drw x y n) → (∀ x, i ≠ .ldRegs x) →
      exec i { s with mem := m } = mapNext (fun t => { t with mem := m }) (exec i s)) ∧
    (∀ a, (∀ x y n, i ≠ .drw x y n) → (∀ x, i ≠ .addI x) → (∀ x, i ≠ .ldB x) → (∀ x, i ≠ .stRegs x) →
      (∀ x, i ≠ .ldRegs x) → exec i { s with index := a } =
        mapNext (fun t => if (∃ nnn, i = .ldI nnn) ∨ (∃ x, i = .ldF x) then t else { t with index := a }) (exec i s)) ∧
    (∀ b, i ≠ .ret → (∀ nnn, i ≠ .call nnn) →
      exec i { s with sp := b } = mapNext (fun t => { t with sp := b }) (exec i s))

/-- Derived from R20 (the column "read by"), R24, R32, R100 and R202: `pc` decides nothing but the next `pc`, the address a fault
records (its cause and other info do not depend on `pc`) and, in CALL, what is stored on the stack; no instruction reads
`halted` or `fault`, which only the host reads: an instruction leaves both as they are, or writes both whatever they were. -/
def Obligations.PcAndTheFaultStateDecideNoOtherPart : Prop :=
  ∀ (i : Instr) (s : State),
    (∀ p, (∀ nnn, i ≠ .call nnn) →
      mapNext (fun t => { t with pc := s.pc, fault := t.faultWithoutAddress }) (exec i { s with pc := p }) =
        mapNext (fun t => { t with pc := s.pc, fault := t.faultWithoutAddress }) (exec i s)) ∧
    (∀ p, mapNext (fun t => { t with pc := s.pc, fault := t.faultWithoutAddress, stack := s.stack })
        (exec i { s with pc := p }) =
      mapNext (fun t => { t with pc := s.pc, fault := t.faultWithoutAddress, stack := s.stack }) (exec i s)) ∧
    ((∀ h f, exec i { s with halted := h, fault := f } =
        mapNext (fun t => { t with halted := h, fault := f }) (exec i s)) ∨
      ∀ h f, exec i { s with halted := h, fault := f } = exec i s)

/-- Derived from R21 and R23: a `V` register that is no source operand of an instruction has no influence on what it does to
any other part of the state; in particular no instruction reads `VF` as a flag. -/
def Obligations.RegistersAreReadOnlyAsOperands : Prop :=
  ∀ (i : Instr) (s : State) (r : RegNum) (b : Byte), r ∉ sourceRegs s.config i →
    mapNext (fun t => t.writeV r b) (exec i (s.writeV r b)) = mapNext (fun t => t.writeV r b) (exec i s)

/-! ## Control transfer -/

/-- R102 and R113: JP and JP V0 go on, set `pc` to the target and change nothing else; the sum of JP V0 is masked only
under `JumpOffsetMask = mask12`; a target past memory faults at the next fetch. -/
def Obligations.JumpsSetOnlyPc : Prop :=
  ∀ (s : State) (nnn : Word), nnn.toNat < 0x1000 →
    Encodes (nnnWord 0x1000 nnn) (.jp nnn) ∧ exec (.jp nnn) s = .next { s with pc := nnn } ∧
    Encodes (nnnWord 0xB000 nnn) (.jpV0 nnn) ∧
    ∃ t, exec (.jpV0 nnn) s = .next t ∧ t = { s with pc := t.pc } ∧
      (s.config.jumpOffsetMask = .none → t.pc.toNat = (s.readV 0).toNat + nnn.toNat) ∧
      (s.config.jumpOffsetMask = .mask12 → t.pc.toNat = ((s.readV 0).toNat + nnn.toNat) % 4096) ∧
      NextFetchFaultsPastMemory (.jp nnn) s ∧ NextFetchFaultsPastMemory (.jpV0 nnn) s

/-- Derived from R103 and R104: CALL with room on the stack increments `sp`, stores the link there (`a + 2`, or `a` under
`CallLink = pre_fetch`) and jumps; with no room it raises `StackOverflow(sp + 1)`, 16 for `sp = 15`. Nothing else changes.
`sp > 15` stands in no session (R26, log entry 11). -/
def Obligations.CallPushesTheLinkOrOverflows : Prop :=
  ∀ (s : State) (nnn : Word), nnn.toNat < 0x1000 →
    Encodes (nnnWord 0x2000 nnn) (.call nnn) ∧
    (∀ h : s.sp.toNat < 15, ∃ t, exec (.call nnn) s = .next t ∧ t.pc = nnn ∧ t.sp.toNat = s.sp.toNat + 1 ∧
      (s.config.callLink = .postFetch → t.stack[s.sp.toNat + 1] = s.pc) ∧
      (s.config.callLink = .preFetch → t.stack[s.sp.toNat + 1] = s.pc - 2) ∧
      (∀ k (hk : k < 16), k ≠ s.sp.toNat + 1 → t.stack[k] = s.stack[k]) ∧
      t = { s with pc := t.pc, sp := t.sp, stack := t.stack }) ∧
    (15 ≤ s.sp.toNat → Raises (.call nnn) s (.stackOverflow (s.sp.toNat + 1)))

/-- Derived from R101: RET takes `pc` from `Stack[sp]` and lowers `sp` unless it is 0. Nothing else changes; the entry
is not cleared. -/
def Obligations.ReturnPopsTheStackAndClampsAtZero : Prop :=
  Encodes 0x00EE .ret ∧
  ∀ (s : State) (h : s.sp.toNat ≤ 15), ∃ t, exec .ret s = .next t ∧ t.pc = s.stack[s.sp.toNat] ∧
    t.sp.toNat = s.sp.toNat - 1 ∧ t = { s with pc := t.pc, sp := t.sp } ∧ KeepsMemory s t

/-- Derived from R101 and R103: under the default `CallLink`, a RET right after a CALL goes back to the `pc` after the
CALL and to the same `sp`, and only the pushed stack entry differs. -/
def Obligations.ReturnUndoesCall : Prop :=
  ∀ (s : State) (nnn : Word), s.sp.toNat < 15 → s.config.callLink = .postFetch →
    ∃ t, execAll [.call nnn, .ret] s = .next t ∧ t = { s with stack := t.stack } ∧
      ∀ k (hk : k < 16), k ≠ s.sp.toNat + 1 → t.stack[k] = s.stack[k]

/-- Derived from R103, R104 and R238: CALLs nest as deep as the stack has room, 15 from the empty stack, and the next
one raises `StackOverflow(16)`. -/
def Obligations.FifteenCallsNestAndTheNextOverflows : Prop :=
  ∀ (s : State) (targets : List Word) (nnn : Word), s.sp.toNat + targets.length = 15 →
    ∃ t, execAll (targets.map .call) s = .next t ∧ t.sp.toNat = 15 ∧ KeepsRegs s t [] ∧ KeepsMemory s t ∧
      (∀ k (hk : k < 16), k ≤ s.sp.toNat → t.stack[k] = s.stack[k]) ∧
      Raises (.call nnn) t (.stackOverflow 16)

/-- R105 to R108: a skip moves `pc` by 2 more when its condition holds, and changes nothing else. -/
def Obligations.SkipsMovePcByTwoOnTheirCondition : Prop :=
  ∀ (s : State) (x y : RegNum) (nn : Byte),
    (Encodes (xnnWord 0x3000 x nn) (.seImm x nn) ∧
      exec (.seImm x nn) s = .next { s with pc := if s.readV x = nn then s.pc + 2 else s.pc }) ∧
    (Encodes (xnnWord 0x4000 x nn) (.sneImm x nn) ∧
      exec (.sneImm x nn) s = .next { s with pc := if s.readV x = nn then s.pc else s.pc + 2 }) ∧
    (Encodes (xyWord 0x5000 x y) (.seReg x y) ∧
      exec (.seReg x y) s = .next { s with pc := if s.readV x = s.readV y then s.pc + 2 else s.pc }) ∧
    (Encodes (xyWord 0x9000 x y) (.sneReg x y) ∧
      exec (.sneReg x y) s = .next { s with pc := if s.readV x = s.readV y then s.pc else s.pc + 2 })

/-! ## Register ALU -/

/-- R120 to R125: the loads, the bitwise operations and ADD Vx, NN write their result to `V[X]` and nothing else; no flag
is written unless `X = F`, and then `VF` holds the result. -/
def Obligations.LoadsLogicAndAddImmediateWriteOnlyVx : Prop :=
  ∀ (s : State) (x y : RegNum) (nn : Byte),
    (Encodes (xnnWord 0x6000 x nn) (.ldImm x nn) ∧ WritesRegister (.ldImm x nn) s x nn) ∧
    (Encodes (xyWord 0x8000 x y) (.ldReg x y) ∧ WritesRegister (.ldReg x y) s x (s.readV y)) ∧
    (Encodes (xyWord 0x8001 x y) (.orReg x y) ∧ WritesRegister (.orReg x y) s x (s.readV x ||| s.readV y)) ∧
    (Encodes (xyWord 0x8002 x y) (.andReg x y) ∧ WritesRegister (.andReg x y) s x (s.readV x &&& s.readV y)) ∧
    (Encodes (xyWord 0x8003 x y) (.xorReg x y) ∧ WritesRegister (.xorReg x y) s x (s.readV x ^^^ s.readV y)) ∧
    (Encodes (xnnWord 0x7000 x nn) (.addImm x nn) ∧
      WritesRegister (.addImm x nn) s x (BitVec.ofNat 8 (((s.readV x).toNat + nn.toNat) % 256)))

/-- R126: ADD Vx, Vy writes the sum modulo 256 and then the carry to `VF`, which wins when `X = F`. -/
def Obligations.AddWritesTheSumAndTheCarry : Prop :=
  ∀ (s : State) (x y : RegNum),
    Encodes (xyWord 0x8004 x y) (.addReg x y) ∧
    WritesResultAndFlag (.addReg x y) s x (BitVec.ofNat 8 (((s.readV x).toNat + (s.readV y).toNat) % 256))
      (if 255 < (s.readV x).toNat + (s.readV y).toNat then 1 else 0)

/-- R127 and R128: SUB and SUBN write the difference modulo 256 and then the no-borrow flag, which for equal operands is
`SubFlagOnEqual`. -/
def Obligations.SubtractionsWriteTheDifferenceAndNoBorrow : Prop :=
  ∀ (s : State) (x y : RegNum),
    let a := (s.readV x).toNat
    let b := (s.readV y).toNat
    let onEqual : Byte := if s.config.subFlagOnEqual then 1 else 0
    (Encodes (xyWord 0x8005 x y) (.sub x y) ∧
      WritesResultAndFlag (.sub x y) s x (BitVec.ofNat 8 ((256 + a - b) % 256))
        (if b < a then 1 else if a = b then onEqual else 0)) ∧
    (Encodes (xyWord 0x8007 x y) (.subn x y) ∧
      WritesResultAndFlag (.subn x y) s x (BitVec.ofNat 8 ((256 + b - a) % 256))
        (if a < b then 1 else if a = b then onEqual else 0))

/-- R129 and R130: the shifts take `V[X]`, or `V[Y]` under `ShiftSource = VY`, write it halved or doubled to `V[X]`, and
then the bit shifted out to `VF`. -/
def Obligations.ShiftsWriteTheResultAndTheBitShiftedOut : Prop :=
  ∀ (s : State) (x y : RegNum) (v : Byte),
    v = (if s.config.shiftSource = .vx then s.readV x else s.readV y) →
    (Encodes (xyWord 0x8006 x y) (.shr x y) ∧
      WritesResultAndFlag (.shr x y) s x (BitVec.ofNat 8 (v.toNat / 2)) (BitVec.ofNat 8 (v.toNat % 2))) ∧
    (Encodes (xyWord 0x800E x y) (.shl x y) ∧
      WritesResultAndFlag (.shl x y) s x (BitVec.ofNat 8 (v.toNat * 2 % 256)) (BitVec.ofNat 8 (v.toNat / 128)))

/-- Derived from R131: RND writes the drawn byte AND the mask to `V[X]`, for every byte drawn, takes the next draw,
and changes nothing else. The draw is the free value of log entry 2. -/
def Obligations.RandomWritesTheMaskedDraw : Prop :=
  ∀ (s : State) (x : RegNum) (nn : Byte),
    Encodes (xnnWord 0xC000 x nn) (.rnd x nn) ∧
    (∃ t, exec (.rnd x nn) s = .next t ∧ t.readV x = Config.rand s.draws &&& nn ∧ t.draws = s.draws + 1 ∧
      (nn = 0 → t.readV x = 0) ∧ t = { s with v := t.v, draws := t.draws } ∧ KeepsRegs s t [x] ∧ KeepsMemory s t) ∧
    ∀ rand : Byte, (rndWith rand x nn s).readV x = rand &&& nn

/-! ## Display -/

/-- R150: CLS darkens every cell and changes nothing else. -/
def Obligations.ClearDarkensEveryCell : Prop :=
  Encodes 0x00E0 .cls ∧
  ∀ s : State, ∃ t, exec .cls s = .next t ∧ (∀ x y, x < 64 → y < 32 → getPixel x y t = .ok false) ∧
    t = { s with disp := t.disp } ∧ KeepsMemory s t

/-- Derived from R151 and R152: a sprite of `N` bytes at `I` that lie in memory is XORed onto the display from the
wrapped origin; pixels outside the frame are dropped; `VF` is 1 exactly when a lit cell of the frame was turned dark;
the coordinates are those before `VF` is written; nothing else changes. -/
def Obligations.DrawXorsTheSpriteAndReportsCollision : Prop :=
  ∀ (s : State) (x y : RegNum) (n : Nat),
    (n < 16 → Encodes (BitVec.ofNat 16 (0xD000 + 256 * x.toNat + 16 * y.toNat + n)) (.drw x y n)) ∧
    (n = 0 ∨ s.index.toNat + n ≤ memSize →
      ∃ t, exec (.drw x y n) s = .next t ∧
        (∀ px py, px < 64 → py < 32 →
          (DrawCovers s x y n px py → t.disp.lit px py = !s.disp.lit px py) ∧
          (¬ DrawCovers s x y n px py → t.disp.lit px py = s.disp.lit px py)) ∧
        ((∃ px py, px < 64 ∧ py < 32 ∧ DrawCovers s x y n px py ∧ s.disp.lit px py = true) → t.readV VF = 1) ∧
        ((¬ ∃ px py, px < 64 ∧ py < 32 ∧ DrawCovers s x y n px py ∧ s.disp.lit px py = true) → t.readV VF = 0) ∧
        t = { s with disp := t.disp, v := t.v } ∧ KeepsRegs s t [VF] ∧ KeepsMemory s t)

/-- Derived from R152: drawing the same sprite twice at the same origin restores the display; the second draw sets
`VF` exactly when a covered cell of the frame was dark before the first (log entry 6). -/
def Obligations.DrawingTwiceRestoresTheDisplay : Prop :=
  ∀ (s : State) (x y : RegNum) (n : Nat), n = 0 ∨ s.index.toNat + n ≤ memSize →
    ∃ t, exec (.drw x y n) s = .next t ∧
      ((∀ px py, DrawCovers t x y n px py ↔ DrawCovers s x y n px py) →
        ∃ u, exec (.drw x y n) t = .next u ∧ u.disp = s.disp ∧
          (u.readV VF = 1 ↔ ∃ px py, px < 64 ∧ py < 32 ∧ s.disp.lit px py = false ∧
            DrawCovers s x y n px py))

/-! ## Keys and timers -/

/-- R160 and R161: SKP and SKNP skip on the state of the key that `V[X]` names, and raise `KeyIndexOutOfRange` when it is
above 15. -/
def Obligations.KeyTestsSkipOrFault : Prop :=
  ∀ (s : State) (x : RegNum),
    Encodes (xWord 0xE09E x) (.skp x) ∧ Encodes (xWord 0xE0A1 x) (.sknp x) ∧
    (∀ h : (s.readV x).toNat < 16,
      exec (.skp x) s = .next { s with pc := if s.key[(s.readV x).toNat] = true then s.pc + 2 else s.pc } ∧
      exec (.sknp x) s = .next { s with pc := if s.key[(s.readV x).toNat] = true then s.pc else s.pc + 2 }) ∧
    (15 < (s.readV x).toNat →
      Raises (.skp x) s (.keyIndexOutOfRange (s.readV x)) ∧ Raises (.sknp x) s (.keyIndexOutOfRange (s.readV x)))

/-- R162 to R164: the timer transfers copy between `V[X]` and the timer, and change nothing else. -/
def Obligations.TimerTransfersCopyOneByte : Prop :=
  ∀ (s : State) (x : RegNum),
    (Encodes (xWord 0xF007 x) (.ldVxDt x) ∧ WritesRegister (.ldVxDt x) s x s.dt) ∧
    (Encodes (xWord 0xF015 x) (.ldDt x) ∧ exec (.ldDt x) s = .next { s with dt := s.readV x }) ∧
    (Encodes (xWord 0xF018 x) (.ldSt x) ∧ exec (.ldSt x) s = .next { s with st := s.readV x })

/-- R165: FX0A stores the lowest key that is down, and with no key down rewinds `pc` by 2 and changes nothing else, while
the host's ticks go on counting the timers down. -/
def Obligations.KeyWaitTakesTheLowestKeyOrRewinds : Prop :=
  ∀ (s : State) (x : RegNum),
    Encodes (xWord 0xF00A x) (.ldVxK x) ∧
    (∀ k (hk : k < 16), s.key[k] = true → (∀ j (hj : j < k), s.key[j] = false) →
      WritesRegister (.ldVxK x) s x (BitVec.ofNat 8 k)) ∧
    ((∀ k (hk : k < 16), s.key[k] = false) → exec (.ldVxK x) s = .next { s with pc := s.pc - 2 } ∧
      exec (.ldVxK x) (tick s) = .next (tick { s with pc := s.pc - 2 }))

/-- R167: while no key is down any number of steps at an FX0A leave the whole state as it is; with a key down one step
captures the lowest and goes on to the next instruction. -/
def Obligations.KeyWaitIsIdempotentUntilAKeyIsDown : Prop :=
  ∀ (s : State) (x : RegNum), s.halted = false → Fetches s (.ldVxK x) →
    ((∀ k (hk : k < 16), s.key[k] = false) → ∀ n, stepN n s = .next s) ∧
    (∀ k (hk : k < 16), s.key[k] = true → (∀ j (hj : j < k), s.key[j] = false) →
      ∃ t, step s = .next t ∧ t.readV x = BitVec.ofNat 8 k ∧ t.pc = s.pc + 2 ∧ KeepsRegs s t [x] ∧
        t = { s with pc := t.pc, v := t.v })

/-- R172: a tick lowers each timer by 1 unless it is 0, whether or not the block is halted, and changes nothing else. -/
def Obligations.TickCountsBothTimersDownToZero : Prop :=
  ∀ s : State, ∃ t, runCommand .tick s = .next t ∧ t.dt.toNat = s.dt.toNat - 1 ∧ t.st.toNat = s.st.toNat - 1 ∧
    t = { s with dt := t.dt, st := t.st }

/-! ## Index register and memory -/

/-- Derived from R180 to R182: the three instructions that write `I` write the address, the sum modulo 2^16, or five
times the glyph index, and change nothing else: `VF` in particular. -/
def Obligations.IndexInstructionsWriteOnlyI : Prop :=
  ∀ (s : State) (x : RegNum) (nnn : Word),
    (nnn.toNat < 0x1000 → Encodes (nnnWord 0xA000 nnn) (.ldI nnn)) ∧
    exec (.ldI nnn) s = .next { s with index := nnn } ∧
    (Encodes (xWord 0xF01E x) (.addI x) ∧
      exec (.addI x) s = .next { s with index := BitVec.ofNat 16 ((s.index.toNat + (s.readV x).toNat) % 65536) }) ∧
    (Encodes (xWord 0xF029 x) (.ldF x) ∧
      exec (.ldF x) s = .next { s with index := BitVec.ofNat 16 ((s.readV x).toNat * 5) })

/-- Derived from R183, for memory in its canonical form (the invariant's first part): FX33 stores the three decimal
digits of `V[X]` at `I`, `I + 1` and `I + 2` and changes nothing else. -/
def Obligations.BcdStoresTheThreeDigitsAtI : Prop :=
  ∀ (s : State) (x : RegNum),
    Encodes (xWord 0xF033 x) (.ldB x) ∧
    (s.mem.wf = true → s.index.toNat + 3 ≤ memSize →
      ∃ t, exec (.ldB x) s = .next t ∧
        (t.mem.read s.index.toNat).toNat = (s.readV x).toNat / 100 ∧
        (t.mem.read (s.index.toNat + 1)).toNat = (s.readV x).toNat / 10 % 10 ∧
        (t.mem.read (s.index.toNat + 2)).toNat = (s.readV x).toNat % 10 ∧
        KeepsMemoryOutside s t s.index.toNat 3 ∧ t = { s with mem := t.mem })

/-- Derived from R184, for memory in its canonical form: FX55 stores `V0` to `VX` from `I` upwards and changes nothing
else. -/
def Obligations.RegisterDumpStoresV0ToVxAtI : Prop :=
  ∀ (s : State) (x : RegNum),
    Encodes (xWord 0xF055 x) (.stRegs x) ∧
    (s.mem.wf = true → s.index.toNat + x.toNat + 1 ≤ memSize →
      ∃ t, exec (.stRegs x) s = .next t ∧
        (∀ r : RegNum, r.toNat ≤ x.toNat → t.mem.read (s.index.toNat + r.toNat) = s.readV r) ∧
        KeepsMemoryOutside s t s.index.toNat (x.toNat + 1) ∧ t = { s with mem := t.mem })

/-- Derived from R185: FX65 loads `V0` to `VX` from `I` upwards, leaves the registers above `X` as they are, and
changes nothing else. -/
def Obligations.RegisterLoadReadsV0ToVxAtI : Prop :=
  ∀ (s : State) (x : RegNum),
    Encodes (xWord 0xF065 x) (.ldRegs x) ∧
    (s.index.toNat + x.toNat + 1 ≤ memSize →
      ∃ t, exec (.ldRegs x) s = .next t ∧
        (∀ r : RegNum, r.toNat ≤ x.toNat → t.readV r = s.mem.read (s.index.toNat + r.toNat)) ∧
        (∀ r : RegNum, x.toNat < r.toNat → t.readV r = s.readV r) ∧
        t = { s with v := t.v } ∧ KeepsMemory s t)

/-- Derived from R152 and R183 to R185 (their exceptions) and R205: an instruction one of whose data addresses is 4096
or more raises `MemOutOfRange` with the lowest, and nothing is written. -/
def Obligations.DataAccessesPastMemoryRaiseTheLowestAddress : Prop :=
  ∀ (i : Instr) (s : State) (addr : Nat), LowestBadAddress s.index.toNat (dataBytes i) addr →
    Raises i s (.memOutOfRange addr)

/-- Derived from R184 and R185: an FX65 that finds the memory and `I` an FX55 with the same X left loads the registers
that were stored, and does so whatever the other registers became in between. -/
def Obligations.RegisterLoadUndoesRegisterDump : Prop :=
  ∀ (s u : State) (x : RegNum), s.mem.wf = true → s.index.toNat + x.toNat + 1 ≤ memSize →
    ∃ t, exec (.stRegs x) s = .next t ∧
      (u.mem = t.mem → u.index = s.index → ∃ w, exec (.ldRegs x) u = .next w ∧
        ∀ r : RegNum, r.toNat ≤ x.toNat → w.readV r = s.readV r)

/-- Derived from R51, R64 and R235: an FX55 that stores over the word at `pc` changes the very next fetch, which reads
`V0` as the high byte and `V1` as the low. -/
def Obligations.StoredInstructionIsTheNextOneFetched : Prop :=
  ∀ (s : State) (x : RegNum), s.mem.wf = true → 1 ≤ x.toNat → s.index = s.pc → s.index.toNat + x.toNat + 1 ≤ memSize →
    ∃ t, exec (.stRegs x) s = .next t ∧
      (fetchWord t).toNat = 256 * (s.readV 0).toNat + (s.readV 1).toNat ∧
      ∀ i, s.halted = false → decodeWord s.config.strictDecode (fetchWord t) = .ok i →
        step t = exec i { t with pc := t.pc + 2 }

/-! ## Reset, boot, the host, and the end of a run -/

/-- Derived from R40, R42 and R230: right after creation every part of the state is zero, and no fault is recorded. The first
clause is of R9 and R33: the machine after reset has the seven default parameters (the spec's decisions, log entry 10; the
glyph bytes are general knowledge, log entry 8). -/
def Obligations.ResetLeavesEveryPartZero : Prop :=
  (let d := State.reset.config
   d.callLink = .postFetch ∧ d.drawYWrap = .mod64 ∧ d.subFlagOnEqual = false ∧ d.jumpOffsetMask = .none ∧
    d.shiftSource = .vx ∧ d.strictDecode = true ∧ d.fontTable.toList = fontGlyphs) ∧
  ∀ c : Config, let s := State.create c
    (∀ a, s.mem.read a = 0) ∧ (∀ r, s.readV r = 0) ∧ s.index = 0 ∧ s.pc = 0 ∧ s.sp = 0 ∧
    (∀ k (hk : k < 16), s.stack[k] = 0 ∧ s.key[k] = false) ∧ s.dt = 0 ∧ s.st = 0 ∧
    (∀ x y, x < 64 → y < 32 → getPixel x y s = .ok false) ∧ s.halted = false ∧ s.fault = none ∧
    FaultCause.code s.fault = 0

/-- Derived from R40, R58 and R231: after the boot sequence with a ROM that fits, memory holds the font, zeros, the
ROM from 0x200 and zeros, `pc` is 0x200, and the rest is as creation left it. -/
def Obligations.BootLoadsFontAndRom : Prop :=
  ∀ (c : Config) (rom : List Byte), rom.length ≤ 3584 →
    ∃ s, boot c rom = .next s ∧
      (∀ a (h : a < 0x50), s.mem.read a = c.fontTable[a]) ∧
      (∀ a, 0x50 ≤ a → a < 0x200 → s.mem.read a = 0) ∧
      (∀ k (h : k < rom.length), s.mem.read (0x200 + k) = rom[k]) ∧
      (∀ a, 0x200 + rom.length ≤ a → s.mem.read a = 0) ∧
      s.pc.toNat = 0x200 ∧ s = { State.create c with mem := s.mem, pc := s.pc }

/-- Derived from R172, R215 to R218, R220, R221, R223, R224 and R230, for memory in its canonical form: each of the nine host
operations has its effect and no other, or is refused and has none. Reading changes nothing; a creation leaves the state after
reset with the parameters the block had (the draw counter, the model's own field, goes on: log entries 2 and 9). -/
def Obligations.HostOperationsDoTheirEffectOrAreRefused : Prop :=
  ∀ s : State, s.mem.wf = true →
    (∀ addr bytes, addr + bytes.length ≤ memSize → ∃ t, runCommand (.loadBytes addr bytes) s = .next t ∧
      (∀ k (h : k < bytes.length), t.mem.read (addr + k) = bytes[k]) ∧
      KeepsMemoryOutside s t addr bytes.length ∧ t = { s with mem := t.mem }) ∧
    (∀ addr bytes, memSize < addr + bytes.length →
      runCommand (.loadBytes addr bytes) s = .refused (.loadOutOfRange addr bytes.length)) ∧
    (∃ t, runCommand .loadFont s = .next t ∧ (∀ a (h : a < 80), t.mem.read a = s.config.fontTable[a]) ∧
      KeepsMemoryOutside s t 0 80 ∧ t = { s with mem := t.mem }) ∧
    (∀ k down (h : k < 16), ∃ t, runCommand (.setKey k down) s = .next t ∧ t.key[k] = down ∧
      (∀ j (hj : j < 16), j ≠ k → t.key[j] = s.key[j]) ∧ t = { s with key := t.key }) ∧
    (∀ k down, 16 ≤ k → runCommand (.setKey k down) s = .refused (.noSuchKey k)) ∧
    runCommand .start s = .next { s with pc := 0x200 } ∧
    (∀ x y (hx : x < 64) (hy : y < 32), getPixel x y s = .ok s.disp[y][x]) ∧
    (∀ x y, 64 ≤ x ∨ 32 ≤ y → getPixel x y s = .error (.noSuchPixel x y)) ∧
    (∀ x y, x < 64 → y < 32 → runCommand (.getPixel x y) s = .next s) ∧
    (∀ x y, 64 ≤ x ∨ 32 ≤ y → runCommand (.getPixel x y) s = .refused (.noSuchPixel x y)) ∧
    (let r := readState s
     r.v = s.v ∧ r.index = s.index ∧ r.pc = s.pc ∧ r.sp = s.sp ∧ r.stack = s.stack ∧ r.dt = s.dt ∧ r.st = s.st ∧
      (∀ a, r.mem.read a = s.mem.read a) ∧ r.halted = s.halted ∧ r.fault = s.fault) ∧
    runCommand .readState s = .next s ∧
    (∃ t, runCommand .tick s = .next t ∧ t.dt.toNat = s.dt.toNat - 1 ∧ t.st.toNat = s.st.toNat - 1 ∧
      t = { s with dt := t.dt, st := t.st }) ∧
    (∃ t, runCommand .create s = .next t ∧ t = { State.create s.config with draws := s.draws } ∧
      (∀ a, t.mem.read a = 0) ∧ (∀ r, t.readV r = 0) ∧ t.pc = 0 ∧ t.sp = 0 ∧ t.halted = false ∧ t.fault = none) ∧
    runCommand .step s = step s

/-- Derived from R240: at the end of a run, a jump to itself, every later step leaves the state unchanged; and host operations
that load nothing and do not set `pc`, interleaved with steps, leave it at the end and change the timers and keys only. -/
def Obligations.EndOfRunIsAFixedPoint : Prop :=
  ∀ s : State, s.atEnd → (∀ n, stepN n s = .next s) ∧
    ∀ cs : List Command, (∀ c ∈ cs, c.keepsProgram = true) →
      ∃ t, runCommands cs s = .next t ∧ t.atEnd ∧ t = { s with dt := t.dt, st := t.st, key := t.key }

/-- Derived from R201, R210, R231 and R240: a run is steps and host operations in an order the host gives (log entry 14),
with each random byte the free value that the state's draw counter names (log entry 2). It ends in at most one state; one that
comes to a fault before an end has no end; and where the host neither loads nor sets `pc`, one that comes to a fault at all
has none. -/
def Obligations.RunsEndInAtMostOneStateAndNeverAfterAFault : Prop :=
  ∀ (cs : List Command) (s : State),
    (∀ t u, RunEnds cs s t → RunEnds cs s u → t = u) ∧
    (∀ n f, runCommands (cs.take n) s = .next f → f.halted = true →
      ((∀ m u, m < n → runCommands (cs.take m) s = .next u → ¬ u.atEnd) ∨ ∀ c ∈ cs, c.keepsProgram = true) →
      ¬ ∃ t, RunEnds cs s t)
end

