-- ==== Sys2Proof/Laws/Decode.lean ====
section
/-! SUPPORT. The fields of the words the encoder builds, the bytes of a word, and what the decoder can answer. -/

namespace Sys2Proof

/-! ### Fields of an encoded word: no bit is dropped -/

@[simp] theorem fieldF_wordXYN (f : BitVec 4) (x y : RegNum) (n : BitVec 4) : fieldF (wordXYN f x y n) = f := by
  unfold fieldF wordXYN; ext i; simp; grind

@[simp] theorem fieldX_wordXYN (f : BitVec 4) (x y : RegNum) (n : BitVec 4) : fieldX (wordXYN f x y n) = x := by
  unfold fieldX wordXYN; ext i; simp; grind

@[simp] theorem fieldY_wordXYN (f : BitVec 4) (x y : RegNum) (n : BitVec 4) : fieldY (wordXYN f x y n) = y := by
  unfold fieldY wordXYN; ext i; simp; grind

@[simp] theorem fieldN_wordXYN (f : BitVec 4) (x y : RegNum) (n : BitVec 4) : fieldN (wordXYN f x y n) = n := by
  unfold fieldN wordXYN; ext i; simp; grind

@[simp] theorem fieldF_wordXNN (f : BitVec 4) (x : RegNum) (nn : Byte) : fieldF (wordXNN f x nn) = f := by
  unfold fieldF wordXNN; ext i; simp; grind

@[simp] theorem fieldX_wordXNN (f : BitVec 4) (x : RegNum) (nn : Byte) : fieldX (wordXNN f x nn) = x := by
  unfold fieldX wordXNN; ext i; simp; grind

@[simp] theorem fieldNN_wordXNN (f : BitVec 4) (x : RegNum) (nn : Byte) : fieldNN (wordXNN f x nn) = nn := by
  unfold fieldNN wordXNN; ext i; simp; grind

@[simp] theorem fieldF_wordNNN (f : BitVec 4) (nnn : Word) : fieldF (wordNNN f nnn) = f := by
  unfold fieldF wordNNN; ext i; simp; grind

theorem setWidth_of_addressFits {nnn : Word} (h : addressFits nnn = true) : (nnn.setWidth 12).setWidth 16 = nnn := by
  have h : nnn.toNat < 4096 := by simpa [addressFits] using h
  apply BitVec.eq_of_toNat_eq
  simp only [BitVec.toNat_setWidth]
  omega

theorem fieldNNN_wordNNN (f : BitVec 4) {nnn : Word} (h : addressFits nnn = true) : fieldNNN (wordNNN f nnn) = nnn := by
  have hlow : (wordNNN f nnn).extractLsb' 0 12 = nnn.setWidth 12 := by
    unfold wordNNN; ext i; simp; grind
  rw [fieldNNN, hlow, setWidth_of_addressFits h]

/-- The 12-bit field always fits. -/
theorem addressFits_fieldNNN (w : Word) : addressFits (fieldNNN w) = true := by
  have := (w.extractLsb' 0 12).isLt
  simp only [addressFits, fieldNNN, BitVec.toNat_setWidth, decide_eq_true_eq]
  omega

theorem toNat_ofNat_of_rowCountFits {n : Nat} (h : rowCountFits n = true) : (BitVec.ofNat 4 n).toNat = n := by
  have h : n < 16 := by simpa [rowCountFits] using h
  simp only [BitVec.toNat_ofNat]
  omega

/-! ### A word is made of its fields, and its value is a sum of them -/

theorem wordXYN_fields (w : Word) : wordXYN (fieldF w) (fieldX w) (fieldY w) (fieldN w) = w := by
  unfold wordXYN fieldF fieldX fieldY fieldN; ext i; simp; grind

theorem wordXNN_fields (w : Word) : wordXNN (fieldF w) (fieldX w) (fieldNN w) = w := by
  unfold wordXNN fieldF fieldX fieldNN; ext i; simp; grind

theorem wordNNN_fields (w : Word) : wordNNN (fieldF w) (fieldNNN w) = w := by
  unfold wordNNN fieldF fieldNNN; ext i; simp; grind

theorem wordXYN_toNat (f : BitVec 4) (x y : RegNum) (n : BitVec 4) :
    (wordXYN f x y n).toNat = f.toNat * 4096 + x.toNat * 256 + y.toNat * 16 + n.toNat := by
  have e : (wordXYN f x y n).toNat = ((f.toNat <<< 4 ||| x.toNat) <<< 4 ||| y.toNat) <<< 4 ||| n.toNat := by
    unfold wordXYN
    rw [BitVec.toNat_append, BitVec.toNat_append, BitVec.toNat_append]
  rw [e, ← Nat.shiftLeft_add_eq_or_of_lt x.isLt, ← Nat.shiftLeft_add_eq_or_of_lt y.isLt,
    ← Nat.shiftLeft_add_eq_or_of_lt n.isLt]
  simp only [Nat.shiftLeft_eq]
  omega

theorem wordXNN_toNat (f : BitVec 4) (x : RegNum) (nn : Byte) :
    (wordXNN f x nn).toNat = f.toNat * 4096 + x.toNat * 256 + nn.toNat := by
  have e : (wordXNN f x nn).toNat = (f.toNat <<< 4 ||| x.toNat) <<< 8 ||| nn.toNat := by
    unfold wordXNN
    rw [BitVec.toNat_append, BitVec.toNat_append]
  rw [e, ← Nat.shiftLeft_add_eq_or_of_lt x.isLt, ← Nat.shiftLeft_add_eq_or_of_lt nn.isLt]
  simp only [Nat.shiftLeft_eq]
  omega

theorem wordNNN_toNat (f : BitVec 4) {nnn : Word} (h : nnn.toNat < 4096) :
    (wordNNN f nnn).toNat = f.toNat * 4096 + nnn.toNat := by
  have e : (wordNNN f nnn).toNat = f.toNat <<< 12 ||| (nnn.setWidth 12).toNat := by
    unfold wordNNN
    rw [BitVec.toNat_append]
  rw [e, ← Nat.shiftLeft_add_eq_or_of_lt (nnn.setWidth 12).isLt]
  simp only [Nat.shiftLeft_eq, BitVec.toNat_setWidth]
  omega

/-! ### Bytes of a word -/

@[simp] theorem bigEndian_highByte_lowByte (w : Word) : bigEndian (highByte w) (lowByte w) = w := by
  unfold bigEndian highByte lowByte; ext i; simp; grind

@[simp] theorem highByte_bigEndian (hi lo : Byte) : highByte (bigEndian hi lo) = hi := by
  unfold bigEndian highByte; ext i; simp; grind

@[simp] theorem lowByte_bigEndian (hi lo : Byte) : lowByte (bigEndian hi lo) = lo := by
  unfold bigEndian lowByte; ext i; simp; grind

theorem bigEndian_toNat (hi lo : Byte) : (bigEndian hi lo).toNat = hi.toNat * 256 + lo.toNat := by
  have h : (bigEndian hi lo).toNat = hi.toNat <<< 8 ||| lo.toNat := BitVec.toNat_append hi lo
  rw [h, ← Nat.shiftLeft_add_eq_or_of_lt lo.isLt, Nat.shiftLeft_eq]

/-- Decoding the bytes of a word is decoding the word, and the bytes after it are left. -/
@[simp] theorem decode_wordBytes (strict : Bool) (w : Word) (rest : List Byte) :
    decode strict (wordBytes w ++ rest) =
      match decodeWord strict w with | .ok i => .ok (i, rest) | .error e => .error e := by
  cases h : decodeWord strict w <;> simp [wordBytes, decode, h]

/-! ### What the decoder can answer -/

theorem decodeFamily0_ok {strict : Bool} {w : Word} {i : Instr} (h : decodeFamily0 strict w = .ok i) :
    (strict = true → fieldX w = 0) ∧ (fieldNN w = 0xE0 ∧ i = .cls ∨ fieldNN w = 0xEE ∧ i = .ret) := by
  unfold decodeFamily0 at h
  split at h
  · cases h
  · rename_i hs
    refine ⟨fun hst => by by_contra hx; exact hs ⟨hst, hx⟩, ?_⟩
    split at h
    · rename_i hn
      exact .inl ⟨BitVec.eq_of_toNat_eq hn, by cases h; rfl⟩
    · rename_i hn
      exact .inr ⟨BitVec.eq_of_toNat_eq hn, by cases h; rfl⟩
    · cases h

theorem decodeCompare_ok {strict : Bool} {w : Word} {i j : Instr} (h : decodeCompare strict w i = .ok j) :
    (strict = true → fieldN w = 0) ∧ j = i := by
  unfold decodeCompare at h
  split at h
  · cases h
  · rename_i hs
    refine ⟨fun hst => by by_contra hx; exact hs ⟨hst, hx⟩, ?_⟩
    cases h
    rfl

/-- The only rejection of a word names that word (R82). -/
theorem decodeWord_error {strict : Bool} {w : Word} {e : DecodeReject} (h : decodeWord strict w = .error e) :
    e = .illegalWord w := by
  unfold decodeWord decodeFamily0 decodeFamily8 decodeFamilyE decodeFamilyF decodeCompare at h
  repeat' split at h
  all_goals first | (cases h; rfl) | cases h

/-- Every decoded instruction has an encoding. -/
theorem wellFormed_of_decodeWord {strict : Bool} {w : Word} {i : Instr} (h : decodeWord strict w = .ok i) :
    i.wellFormed = true := by
  unfold decodeWord decodeFamily0 decodeFamily8 decodeFamilyE decodeFamilyF decodeCompare at h
  repeat' split at h
  all_goals first
    | (cases h; done)
    | (cases h; rfl)
    | (cases h; exact addressFits_fieldNNN w)
    | (cases h; simpa [Instr.wellFormed, rowCountFits] using (fieldN w).isLt)

end Sys2Proof
end

