-- ==== Sys2Proof/Laws/Display.lean ====
section
/-! SUPPORT. What a sprite draw does to the display, cell by cell, and when it reports a collision. -/

namespace Sys2Proof.Machine

/-! ### Cells -/

theorem Display.cell_of_lt (d : Display) {x y : Nat} (hx : x < 64) (hy : y < 32) : d.cell x y = some d[y][x] := by
  simp [Display.cell, hx, hy]

theorem Display.cell_eq_none_iff (d : Display) (x y : Nat) : d.cell x y = none ↔ 64 ≤ x ∨ 32 ≤ y := by
  unfold Display.cell
  by_cases hy : y < 32
  · simp [hy]
  · simp [show 32 ≤ y by omega]

theorem Display.lit_of_lt (d : Display) {x y : Nat} (hx : x < 64) (hy : y < 32) : d.lit x y = d[y][x] := by
  rw [Display.lit, Display.cell_of_lt d hx hy]
  cases d[y][x] <;> rfl

theorem Display.lit_outside (d : Display) {x y : Nat} (h : 64 ≤ x ∨ 32 ≤ y) : d.lit x y = false := by
  rw [Display.lit, (Display.cell_eq_none_iff d x y).2 h]
  rfl

/-- Two displays with the same cells lit are one. -/
theorem Display.ext_lit {d e : Display} (h : ∀ x y, x < 64 → y < 32 → d.lit x y = e.lit x y) : d = e := by
  apply Vector.ext
  intro y hy
  apply Vector.ext
  intro x hx
  have := h x y hx hy
  rwa [Display.lit_of_lt d hx hy, Display.lit_of_lt e hx hy] at this

@[simp] theorem Display.lit_dark (x y : Nat) : Display.dark.lit x y = false := by
  by_cases h : x < 64 ∧ y < 32
  · rw [Display.lit_of_lt _ h.1 h.2]; simp [Display.dark]
  · exact Display.lit_outside _ (by omega)

/-- Toggling changes one cell of the frame and no other. -/
theorem Display.lit_toggle (d : Display) (x y a b : Nat) :
    (d.toggle x y).lit a b = if a = x ∧ b = y ∧ x < 64 ∧ y < 32 then !d.lit a b else d.lit a b := by
  unfold Display.toggle
  split
  · rename_i h
    by_cases hab : a < 64 ∧ b < 32
    · rw [Display.lit_of_lt _ hab.1 hab.2, Display.lit_of_lt _ hab.1 hab.2]
      by_cases hb : y = b
      · subst hb
        by_cases ha : x = a
        · subst ha; simp [h.1, h.2]
        · simp [ha, Ne.symm ha]
      · simp [hb, Ne.symm hb]
    · rw [Display.lit_outside _ (by omega), Display.lit_outside _ (by omega), if_neg (by omega)]
  · rw [if_neg (by omega)]

/-! ### Drawing -/

/-- A pixel outside the frame is no collision and changes nothing; one inside is XORed. -/
theorem Blit.lit_pixel (b : Blit) (x y px py : Nat) :
    (b.pixel x y).disp.lit px py = if px = x ∧ py = y ∧ x < 64 ∧ y < 32 then !b.disp.lit px py else b.disp.lit px py :=
  Display.lit_toggle b.disp x y px py

/-- The first `n` columns of a row. -/
def Blit.columns (b : Blit) (x0 y : Nat) (row : Byte) (n : Nat) : Blit :=
  (List.range n).foldl (fun b c => if spriteBit row c then b.pixel (x0 + c) y else b) b

theorem Blit.columns_succ (b : Blit) (x0 y : Nat) (row : Byte) (n : Nat) :
    b.columns x0 y row (n + 1) =
      if spriteBit row n then (b.columns x0 y row n).pixel (x0 + n) y else b.columns x0 y row n := by
  simp [Blit.columns, List.range_succ]

theorem Blit.lit_columns (b : Blit) (x0 y : Nat) (row : Byte) (n px py : Nat) :
    (b.columns x0 y row n).disp.lit px py =
      if (px < 64 ∧ py < 32) ∧ py = y ∧ x0 ≤ px ∧ px < x0 + n ∧ spriteBit row (px - x0) = true
        then !b.disp.lit px py else b.disp.lit px py := by
  induction n with
  | zero => rw [if_neg (by omega)]; rfl
  | succ n ih =>
    rw [Blit.columns_succ]
    by_cases hp : px = x0 + n ∧ py = y ∧ px < 64 ∧ py < 32
    · obtain ⟨rfl, rfl, hx, hy⟩ := hp
      rw [if_neg (by omega)] at ih
      by_cases hb : spriteBit row n = true
      · rw [if_pos hb, Blit.lit_pixel, if_pos ⟨rfl, rfl, hx, hy⟩, ih, if_pos ?_]
        exact ⟨⟨hx, hy⟩, rfl, by omega, by omega, by simpa using hb⟩
      · rw [if_neg hb, ih, if_neg ?_]
        rintro ⟨-, -, -, -, h⟩
        exact hb (by simpa using h)
    · have hsame : (if spriteBit row n then (b.columns x0 y row n).pixel (x0 + n) y else b.columns x0 y row n).disp.lit
          px py = (b.columns x0 y row n).disp.lit px py := by
        split
        · rw [Blit.lit_pixel, if_neg (by omega)]
        · rfl
      rw [hsame, ih]
      by_cases hc : (px < 64 ∧ py < 32) ∧ py = y ∧ x0 ≤ px ∧ px < x0 + n ∧ spriteBit row (px - x0) = true
      · rw [if_pos hc, if_pos ⟨hc.1, hc.2.1, hc.2.2.1, by omega, hc.2.2.2.2⟩]
      · rw [if_neg hc, if_neg ?_]
        rintro ⟨h1, h2, h3, h4, h5⟩
        exact hc ⟨h1, h2, h3, by omega, h5⟩

theorem Blit.hit_columns (b : Blit) (x0 y : Nat) (row : Byte) (n : Nat) :
    (b.columns x0 y row n).hit = true ↔
      b.hit = true ∨ ∃ px, x0 ≤ px ∧ px < x0 + n ∧ spriteBit row (px - x0) = true ∧ b.disp.lit px y = true := by
  induction n with
  | zero =>
    refine ⟨.inl, ?_⟩
    rintro (h | ⟨px, h1, h2, -⟩)
    · exact h
    · omega
  | succ n ih =>
    have hnew : (b.columns x0 y row n).disp.lit (x0 + n) y = b.disp.lit (x0 + n) y := by
      rw [Blit.lit_columns, if_neg (by omega)]
    have hsplit : (b.columns x0 y row (n + 1)).hit = true ↔
        (b.columns x0 y row n).hit = true ∨ spriteBit row n = true ∧ b.disp.lit (x0 + n) y = true := by
      rw [Blit.columns_succ]
      by_cases hb : spriteBit row n = true
      · simp [hb, Blit.pixel, hnew]
      · simp [hb]
    rw [hsplit, ih]
    constructor
    · rintro ((h | ⟨px, h1, h2, h3, h4⟩) | ⟨h1, h2⟩)
      · exact .inl h
      · exact .inr ⟨px, h1, by omega, h3, h4⟩
      · exact .inr ⟨x0 + n, by omega, by omega, by simpa using h1, h2⟩
    · rintro (h | ⟨px, h1, h2, h3, h4⟩)
      · exact .inl (.inl h)
      · by_cases hpx : px = x0 + n
        · subst hpx
          exact .inr ⟨by simpa using h3, h4⟩
        · exact .inl (.inr ⟨px, h1, by omega, h3, h4⟩)

theorem Blit.row_eq_columns (b : Blit) (x0 y : Nat) (row : Byte) : b.row x0 y row = b.columns x0 y row 8 := rfl

/-! ### The covered pixels of a sprite -/

theorem spriteCovers_nil (x0 y0 px py : Nat) : ¬ spriteCovers [] x0 y0 px py := by
  rintro ⟨-, -, -, row, h, -⟩
  simp at h

theorem spriteCovers_cons (row : Byte) (rest : List Byte) (x0 y0 px py : Nat) :
    spriteCovers (row :: rest) x0 y0 px py ↔
      (py = y0 ∧ x0 ≤ px ∧ px < x0 + 8 ∧ spriteBit row (px - x0) = true) ∨ spriteCovers rest x0 (y0 + 1) px py := by
  unfold spriteCovers spriteBit
  constructor
  · rintro ⟨h1, h2, h3, r, h4, h5⟩
    by_cases hy : py = y0
    · subst hy
      simp only [Nat.sub_self, List.getElem?_cons_zero, Option.some.injEq] at h4
      subst h4
      exact .inl ⟨rfl, h1, h2, h5⟩
    · refine .inr ⟨h1, h2, by omega, r, ?_, h5⟩
      rwa [show py - y0 = (py - (y0 + 1)) + 1 by omega, List.getElem?_cons_succ] at h4
  · rintro (⟨rfl, h1, h2, h3⟩ | ⟨h1, h2, h3, r, h4, h5⟩)
    · exact ⟨h1, h2, le_refl _, row, by simp, h3⟩
    · refine ⟨h1, h2, by omega, r, ?_, h5⟩
      rwa [show py - y0 = (py - (y0 + 1)) + 1 by omega, List.getElem?_cons_succ]

/-- A draw XORs the covered cells of the frame, drops what falls outside, and changes nothing else. -/
theorem Blit.lit_rows (b : Blit) (x0 y0 : Nat) (bytes : List Byte) {px py : Nat} (hx : px < 64) (hy : py < 32) :
    (spriteCovers bytes x0 y0 px py → (b.rows x0 y0 bytes).disp.lit px py = !b.disp.lit px py) ∧
      (¬ spriteCovers bytes x0 y0 px py → (b.rows x0 y0 bytes).disp.lit px py = b.disp.lit px py) := by
  induction bytes generalizing b y0 with
  | nil => exact ⟨fun h => absurd h (spriteCovers_nil _ _ _ _), fun _ => rfl⟩
  | cons row rest ih =>
    obtain ⟨ih1, ih2⟩ := ih (b.row x0 y0 row) (y0 + 1)
    rw [spriteCovers_cons, Blit.rows]
    rw [Blit.row_eq_columns, Blit.lit_columns] at ih1 ih2
    rw [Blit.row_eq_columns]
    by_cases hrow : py = y0 ∧ x0 ≤ px ∧ px < x0 + 8 ∧ spriteBit row (px - x0) = true
    · have hrest : ¬ spriteCovers rest x0 (y0 + 1) px py := fun h => by have := h.2.2.1; omega
      rw [if_pos ⟨⟨hx, hy⟩, hrow⟩] at ih2
      exact ⟨fun _ => ih2 hrest, fun h => absurd (.inl hrow) h⟩
    · rw [if_neg (fun h => hrow h.2)] at ih1 ih2
      refine ⟨fun h => ih1 (h.resolve_left hrow), fun h => ih2 (fun hr => h (.inr hr))⟩

/-- A draw reports a collision exactly when a covered cell was lit. -/
theorem Blit.hit_rows (b : Blit) (x0 y0 : Nat) (bytes : List Byte) :
    (b.rows x0 y0 bytes).hit = true ↔
      b.hit = true ∨ ∃ px py, spriteCovers bytes x0 y0 px py ∧ b.disp.lit px py = true := by
  induction bytes generalizing b y0 with
  | nil =>
    refine ⟨.inl, ?_⟩
    rintro (h | ⟨px, py, h, -⟩)
    · exact h
    · exact absurd h (spriteCovers_nil _ _ _ _)
  | cons row rest ih =>
    rw [Blit.rows, ih, Blit.row_eq_columns, Blit.hit_columns]
    have hlater : ∀ px py, spriteCovers rest x0 (y0 + 1) px py →
        (b.columns x0 y0 row 8).disp.lit px py = b.disp.lit px py := by
      intro px py h
      rw [Blit.lit_columns, if_neg (by have := h.2.2.1; omega)]
    constructor
    · rintro ((h | ⟨px, h1, h2, h3, h4⟩) | ⟨px, py, h1, h2⟩)
      · exact .inl h
      · exact .inr ⟨px, y0, (spriteCovers_cons ..).2 (.inl ⟨rfl, h1, h2, h3⟩), h4⟩
      · exact .inr ⟨px, py, (spriteCovers_cons ..).2 (.inr h1), by rwa [hlater px py h1] at h2⟩
    · rintro (h | ⟨px, py, h1, h2⟩)
      · exact .inl (.inl h)
      · rcases (spriteCovers_cons ..).1 h1 with ⟨rfl, h3⟩ | h3
        · exact .inl (.inr ⟨px, h3.1, h3.2.1, h3.2.2, h2⟩)
        · exact .inr ⟨px, py, h3, by rwa [hlater px py h3]⟩

end Sys2Proof.Machine
end

