-- ==== Sys2Proof/Laws/Memory.lean ====
section
/-! SUPPORT. What the memory operations do: reading after writing, the canonical form, and the bounds check. -/

namespace Sys2Proof.Machine

/-! ### Reading after writing -/

theorem Memory.read_put (a b : Nat) (v : Byte) (m : Memory) (h : a = b → m.read a = v ∨ v ≠ Memory.unlisted a) :
    Memory.read (Memory.put b v m) a = if a = b then v else m.read a := by
  unfold Memory.put
  by_cases hab : a = b
  · subst hab
    split
    · rcases h rfl with h | h
      · simp [h]
      · contradiction
    · simp [Memory.read]
  · rw [if_neg hab]
    split
    · rfl
    · simp [Memory.read, Ne.symm hab]

/-- An address below every listed one reads as unlisted. -/
theorem Memory.read_below {lo a : Nat} {m : Memory} (hm : Memory.wfFrom lo m = true) (ha : a < lo) :
    m.read a = Memory.unlisted a := by
  induction m generalizing lo with
  | nil => rfl
  | cons c m ih =>
    obtain ⟨b, u⟩ := c
    simp only [Memory.wfFrom, Bool.and_eq_true, decide_eq_true_eq] at hm
    have hne : b ≠ a := by omega
    simp [Memory.read, hne]
    exact ih hm.2 (by omega)

theorem Memory.wfFrom_mono {lo lo' : Nat} {m : Memory} (h : lo' ≤ lo) (hm : Memory.wfFrom lo m = true) :
    Memory.wfFrom lo' m = true := by
  cases m with
  | nil => rfl
  | cons c m =>
    obtain ⟨b, u⟩ := c
    simp only [Memory.wfFrom, Bool.and_eq_true, decide_eq_true_eq] at hm ⊢
    exact ⟨⟨⟨by omega, hm.1.1.2⟩, hm.1.2⟩, hm.2⟩

theorem Memory.read_write_from {lo : Nat} {m : Memory} (hm : Memory.wfFrom lo m = true) (a b : Nat) (v : Byte) :
    (m.write b v).read a = if a = b then v else m.read a := by
  induction m generalizing lo with
  | nil =>
    refine Memory.read_put a b v [] fun h => ?_
    by_cases hv : v = Memory.unlisted a
    · exact .inl (by simp [Memory.read, hv])
    · exact .inr hv
  | cons c m ih =>
    obtain ⟨d, u⟩ := c
    simp only [Memory.wfFrom, Bool.and_eq_true, decide_eq_true_eq] at hm
    unfold Memory.write
    split
    · rename_i hlt
      refine Memory.read_put a b v _ fun h => ?_
      by_cases hv : v = Memory.unlisted a
      · refine .inl ?_
        have hd : d ≠ a := by omega
        simp [Memory.read, hd, Memory.read_below hm.2 (show a < d + 1 by omega), hv]
      · exact .inr hv
    · split
      · rename_i hdb
        subst hdb
        rw [Memory.read_put a d v m ?_]
        · by_cases had : a = d
          · simp [had]
          · simp [Memory.read, had, Ne.symm had]
        · intro h
          by_cases hv : v = Memory.unlisted a
          · exact .inl (by rw [Memory.read_below hm.2 (by omega), hv])
          · exact .inr hv
      · rename_i hlt hne
        by_cases hda : d = a
        · subst hda; simp [Memory.read, hne]
        · simp [Memory.read, hda, ih hm.2]

/-- Reading after a write in canonical memory: the value written there, and every other address as before. -/
theorem Memory.read_write {m : Memory} (hm : m.wf = true) (a b : Nat) (v : Byte) :
    (m.write b v).read a = if a = b then v else m.read a := Memory.read_write_from hm a b v

/-! ### The canonical form -/

theorem Memory.wfFrom_put {lo a : Nat} {v : Byte} {m : Memory} (hlo : lo ≤ a) (ha : a < memSize)
    (hm : Memory.wfFrom (a + 1) m = true) : Memory.wfFrom lo (Memory.put a v m) = true := by
  unfold Memory.put
  split
  · exact Memory.wfFrom_mono (by omega) hm
  · rename_i hv
    simp [Memory.wfFrom, hlo, ha, hv, hm]

theorem Memory.wfFrom_write {lo a : Nat} {v : Byte} {m : Memory} (hlo : lo ≤ a) (ha : a < memSize)
    (hm : Memory.wfFrom lo m = true) : Memory.wfFrom lo (m.write a v) = true := by
  induction m generalizing lo with
  | nil => exact Memory.wfFrom_put hlo ha rfl
  | cons c m ih =>
    obtain ⟨b, u⟩ := c
    have hm' := hm
    simp only [Memory.wfFrom, Bool.and_eq_true, decide_eq_true_eq] at hm'
    unfold Memory.write
    split
    · refine Memory.wfFrom_put hlo ha ?_
      simp only [Memory.wfFrom, Bool.and_eq_true, decide_eq_true_eq]
      exact ⟨⟨⟨by omega, hm'.1.1.2⟩, hm'.1.2⟩, hm'.2⟩
    · split
      · rename_i hba
        subst hba
        exact Memory.wfFrom_put hlo ha hm'.2
      · simp only [Memory.wfFrom, Bool.and_eq_true, decide_eq_true_eq]
        exact ⟨hm'.1, ih (by omega) hm'.2⟩

/-- A write to an address that exists keeps the canonical form. -/
theorem Memory.wf_write {m : Memory} {a : Nat} (hm : m.wf = true) (ha : a < memSize) (v : Byte) :
    (m.write a v).wf = true := Memory.wfFrom_write (Nat.zero_le a) ha hm

/-- Writing bytes to addresses that exist keeps the canonical form. -/
theorem Memory.wf_writeBytes {m : Memory} {a : Nat} {bs : List Byte} (hm : m.wf = true)
    (ha : a + bs.length ≤ memSize) : (m.writeBytes a bs).wf = true := by
  induction bs generalizing m a with
  | nil => exact hm
  | cons b bs ih =>
    simp only [List.length_cons] at ha
    exact ih (Memory.wf_write hm (by omega) b) (by omega)

/-- Reading after writing several bytes to addresses that exist. -/
theorem Memory.read_writeBytes {m : Memory} {a : Nat} {bs : List Byte} (hm : m.wf = true)
    (ha : a + bs.length ≤ memSize) (c : Nat) :
    (m.writeBytes a bs).read c = if h : a ≤ c ∧ c < a + bs.length then bs[c - a]'(by omega) else m.read c := by
  induction bs generalizing m a with
  | nil => rw [dif_neg (by simp)]; rfl
  | cons b bs ih =>
    simp only [List.length_cons] at ha
    have hw := Memory.wf_write hm (show a < memSize by omega) b
    rw [Memory.writeBytes, ih hw (by omega), Memory.read_write hm]
    by_cases hca : c = a
    · subst hca
      rw [dif_neg (by omega), dif_pos (by simp)]
      simp
    · by_cases hin : a + 1 ≤ c ∧ c < a + 1 + bs.length
      · rw [dif_pos hin, dif_pos (by simp; omega), List.getElem_cons, dif_neg (by omega)]
        congr 1
      · rw [dif_neg hin, dif_neg (by simp; omega), if_neg hca]

theorem Memory.read_writeBytes_outside {m : Memory} {a : Nat} {bs : List Byte} (hm : m.wf = true)
    (ha : a + bs.length ≤ memSize) {c : Nat} (hc : c < a ∨ a + bs.length ≤ c) :
    (m.writeBytes a bs).read c = m.read c := by
  rw [Memory.read_writeBytes hm ha, dif_neg (by omega)]

@[simp] theorem Memory.length_readBytes (m : Memory) (a n : Nat) : (m.readBytes a n).length = n := by
  simp [Memory.readBytes]

theorem Memory.getElem_readBytes (m : Memory) (a n k : Nat) (h : k < (m.readBytes a n).length) :
    (m.readBytes a n)[k] = m.read (a + k) := by
  simp [Memory.readBytes]

/-! ### The bounds check -/

theorem badAddress_eq_none_iff (base n : Nat) : badAddress base n = none ↔ n = 0 ∨ base + n ≤ memSize := by
  simp only [badAddress, List.find?_eq_none, List.mem_map, List.mem_range, decide_eq_true_eq]
  constructor
  · intro h
    by_contra hc
    exact h (base + (n - 1)) ⟨n - 1, by omega, rfl⟩ (by omega)
  · rintro h _ ⟨k, hk, rfl⟩
    omega

/-- The address that is reported is the lowest that does not exist. -/
theorem badAddress_eq_some {base n addr : Nat} (h : badAddress base n = some addr) :
    base ≤ addr ∧ addr < base + n ∧ memSize ≤ addr ∧ ∀ b, base ≤ b → b < addr → b < memSize := by
  induction n with
  | zero => simp [badAddress] at h
  | succ n ih =>
    rw [badAddress, List.range_succ, List.map_append, List.find?_append] at h
    cases hf : ((List.range n).map (base + ·)).find? (memSize ≤ ·) with
    | some c =>
      rw [hf] at h
      simp only [Option.some_or, Option.some.injEq] at h
      obtain ⟨h1, h2, h3, h4⟩ := ih (by rw [badAddress, hf, h])
      exact ⟨h1, by omega, h3, h4⟩
    | none =>
      rw [hf] at h
      have hnone := (badAddress_eq_none_iff base n).1 hf
      simp only [List.map_cons, List.map_nil, List.find?_cons, List.find?_nil, Option.none_or] at h
      split at h
      · rename_i hle
        simp only [decide_eq_true_eq, Option.some.injEq] at hle h
        refine ⟨by omega, by omega, by omega, fun b hb hb' => by omega⟩
      · cases h

end Sys2Proof.Machine
end

