-- ==== Sys2Proof/Laws/State.lean ====
section
/-! SUPPORT. The small lemmas of the state: one per field per named update, so that no proof unfolds an update. -/

namespace Sys2Proof.Machine

/-! ### `writeV` -/

@[simp] theorem State.writeV_mem (s : State) (x : RegNum) (b : Byte) : (s.writeV x b).mem = s.mem := rfl
@[simp] theorem State.writeV_v (s : State) (x : RegNum) (b : Byte) : (s.writeV x b).v = s.v.set x.toNat b x.isLt := rfl
@[simp] theorem State.writeV_index (s : State) (x : RegNum) (b : Byte) : (s.writeV x b).index = s.index := rfl
@[simp] theorem State.writeV_pc (s : State) (x : RegNum) (b : Byte) : (s.writeV x b).pc = s.pc := rfl
@[simp] theorem State.writeV_sp (s : State) (x : RegNum) (b : Byte) : (s.writeV x b).sp = s.sp := rfl
@[simp] theorem State.writeV_stack (s : State) (x : RegNum) (b : Byte) : (s.writeV x b).stack = s.stack := rfl
@[simp] theorem State.writeV_dt (s : State) (x : RegNum) (b : Byte) : (s.writeV x b).dt = s.dt := rfl
@[simp] theorem State.writeV_st (s : State) (x : RegNum) (b : Byte) : (s.writeV x b).st = s.st := rfl
@[simp] theorem State.writeV_disp (s : State) (x : RegNum) (b : Byte) : (s.writeV x b).disp = s.disp := rfl
@[simp] theorem State.writeV_key (s : State) (x : RegNum) (b : Byte) : (s.writeV x b).key = s.key := rfl
@[simp] theorem State.writeV_halted (s : State) (x : RegNum) (b : Byte) : (s.writeV x b).halted = s.halted := rfl
@[simp] theorem State.writeV_fault (s : State) (x : RegNum) (b : Byte) : (s.writeV x b).fault = s.fault := rfl
@[simp] theorem State.writeV_draws (s : State) (x : RegNum) (b : Byte) : (s.writeV x b).draws = s.draws := rfl
@[simp] theorem State.writeV_config (s : State) (x : RegNum) (b : Byte) : (s.writeV x b).config = s.config := rfl

/-! ### `writeResultAndFlag` -/

@[simp] theorem State.writeResultAndFlag_mem (s : State) (x : RegNum) (b g : Byte) : (s.writeResultAndFlag x b g).mem = s.mem := rfl
@[simp] theorem State.writeResultAndFlag_v (s : State) (x : RegNum) (b g : Byte) : (s.writeResultAndFlag x b g).v = (s.v.set x.toNat b x.isLt).set (VF).toNat g (VF).isLt := rfl
@[simp] theorem State.writeResultAndFlag_index (s : State) (x : RegNum) (b g : Byte) : (s.writeResultAndFlag x b g).index = s.index := rfl
@[simp] theorem State.writeResultAndFlag_pc (s : State) (x : RegNum) (b g : Byte) : (s.writeResultAndFlag x b g).pc = s.pc := rfl
@[simp] theorem State.writeResultAndFlag_sp (s : State) (x : RegNum) (b g : Byte) : (s.writeResultAndFlag x b g).sp = s.sp := rfl
@[simp] theorem State.writeResultAndFlag_stack (s : State) (x : RegNum) (b g : Byte) : (s.writeResultAndFlag x b g).stack = s.stack := rfl
@[simp] theorem State.writeResultAndFlag_dt (s : State) (x : RegNum) (b g : Byte) : (s.writeResultAndFlag x b g).dt = s.dt := rfl
@[simp] theorem State.writeResultAndFlag_st (s : State) (x : RegNum) (b g : Byte) : (s.writeResultAndFlag x b g).st = s.st := rfl
@[simp] theorem State.writeResultAndFlag_disp (s : State) (x : RegNum) (b g : Byte) : (s.writeResultAndFlag x b g).disp = s.disp := rfl
@[simp] theorem State.writeResultAndFlag_key (s : State) (x : RegNum) (b g : Byte) : (s.writeResultAndFlag x b g).key = s.key := rfl
@[simp] theorem State.writeResultAndFlag_halted (s : State) (x : RegNum) (b g : Byte) : (s.writeResultAndFlag x b g).halted = s.halted := rfl
@[simp] theorem State.writeResultAndFlag_fault (s : State) (x : RegNum) (b g : Byte) : (s.writeResultAndFlag x b g).fault = s.fault := rfl
@[simp] theorem State.writeResultAndFlag_draws (s : State) (x : RegNum) (b g : Byte) : (s.writeResultAndFlag x b g).draws = s.draws := rfl
@[simp] theorem State.writeResultAndFlag_config (s : State) (x : RegNum) (b g : Byte) : (s.writeResultAndFlag x b g).config = s.config := rfl

/-! ### `advance` -/

@[simp] theorem advance_mem (s : State) : (advance s).mem = s.mem := rfl
@[simp] theorem advance_v (s : State) : (advance s).v = s.v := rfl
@[simp] theorem advance_index (s : State) : (advance s).index = s.index := rfl
@[simp] theorem advance_pc (s : State) : (advance s).pc = s.pc + 2 := rfl
@[simp] theorem advance_sp (s : State) : (advance s).sp = s.sp := rfl
@[simp] theorem advance_stack (s : State) : (advance s).stack = s.stack := rfl
@[simp] theorem advance_dt (s : State) : (advance s).dt = s.dt := rfl
@[simp] theorem advance_st (s : State) : (advance s).st = s.st := rfl
@[simp] theorem advance_disp (s : State) : (advance s).disp = s.disp := rfl
@[simp] theorem advance_key (s : State) : (advance s).key = s.key := rfl
@[simp] theorem advance_halted (s : State) : (advance s).halted = s.halted := rfl
@[simp] theorem advance_fault (s : State) : (advance s).fault = s.fault := rfl
@[simp] theorem advance_draws (s : State) : (advance s).draws = s.draws := rfl
@[simp] theorem advance_config (s : State) : (advance s).config = s.config := rfl

/-! ### `haltWith` -/

@[simp] theorem haltWith_mem (s : State) (c : FaultCause) : (haltWith c s).mem = s.mem := rfl
@[simp] theorem haltWith_v (s : State) (c : FaultCause) : (haltWith c s).v = s.v := rfl
@[simp] theorem haltWith_index (s : State) (c : FaultCause) : (haltWith c s).index = s.index := rfl
@[simp] theorem haltWith_pc (s : State) (c : FaultCause) : (haltWith c s).pc = s.pc := rfl
@[simp] theorem haltWith_sp (s : State) (c : FaultCause) : (haltWith c s).sp = s.sp := rfl
@[simp] theorem haltWith_stack (s : State) (c : FaultCause) : (haltWith c s).stack = s.stack := rfl
@[simp] theorem haltWith_dt (s : State) (c : FaultCause) : (haltWith c s).dt = s.dt := rfl
@[simp] theorem haltWith_st (s : State) (c : FaultCause) : (haltWith c s).st = s.st := rfl
@[simp] theorem haltWith_disp (s : State) (c : FaultCause) : (haltWith c s).disp = s.disp := rfl
@[simp] theorem haltWith_key (s : State) (c : FaultCause) : (haltWith c s).key = s.key := rfl
@[simp] theorem haltWith_halted (s : State) (c : FaultCause) : (haltWith c s).halted = true := rfl
@[simp] theorem haltWith_fault (s : State) (c : FaultCause) : (haltWith c s).fault = some c := rfl
@[simp] theorem haltWith_draws (s : State) (c : FaultCause) : (haltWith c s).draws = s.draws := rfl
@[simp] theorem haltWith_config (s : State) (c : FaultCause) : (haltWith c s).config = s.config := rfl

/-! ### `skipIf` -/

@[simp] theorem skipIf_mem (s : State) (c : Bool) : (skipIf c s).mem = s.mem := by unfold skipIf; split <;> rfl
@[simp] theorem skipIf_v (s : State) (c : Bool) : (skipIf c s).v = s.v := by unfold skipIf; split <;> rfl
@[simp] theorem skipIf_index (s : State) (c : Bool) : (skipIf c s).index = s.index := by unfold skipIf; split <;> rfl
@[simp] theorem skipIf_sp (s : State) (c : Bool) : (skipIf c s).sp = s.sp := by unfold skipIf; split <;> rfl
@[simp] theorem skipIf_stack (s : State) (c : Bool) : (skipIf c s).stack = s.stack := by unfold skipIf; split <;> rfl
@[simp] theorem skipIf_dt (s : State) (c : Bool) : (skipIf c s).dt = s.dt := by unfold skipIf; split <;> rfl
@[simp] theorem skipIf_st (s : State) (c : Bool) : (skipIf c s).st = s.st := by unfold skipIf; split <;> rfl
@[simp] theorem skipIf_disp (s : State) (c : Bool) : (skipIf c s).disp = s.disp := by unfold skipIf; split <;> rfl
@[simp] theorem skipIf_key (s : State) (c : Bool) : (skipIf c s).key = s.key := by unfold skipIf; split <;> rfl
@[simp] theorem skipIf_halted (s : State) (c : Bool) : (skipIf c s).halted = s.halted := by unfold skipIf; split <;> rfl
@[simp] theorem skipIf_fault (s : State) (c : Bool) : (skipIf c s).fault = s.fault := by unfold skipIf; split <;> rfl
@[simp] theorem skipIf_draws (s : State) (c : Bool) : (skipIf c s).draws = s.draws := by unfold skipIf; split <;> rfl
@[simp] theorem skipIf_config (s : State) (c : Bool) : (skipIf c s).config = s.config := by unfold skipIf; split <;> rfl

theorem skipIf_pc (s : State) (c : Bool) : (skipIf c s).pc = if c then s.pc + 2 else s.pc := by
  unfold skipIf; split <;> rfl

/-! ### `setStackEntry` -/

@[simp] theorem setStackEntry_mem (s : State) (k : Nat) (w : Word) : (setStackEntry s k w).mem = s.mem := by unfold setStackEntry; split <;> rfl
@[simp] theorem setStackEntry_v (s : State) (k : Nat) (w : Word) : (setStackEntry s k w).v = s.v := by unfold setStackEntry; split <;> rfl
@[simp] theorem setStackEntry_index (s : State) (k : Nat) (w : Word) : (setStackEntry s k w).index = s.index := by unfold setStackEntry; split <;> rfl
@[simp] theorem setStackEntry_pc (s : State) (k : Nat) (w : Word) : (setStackEntry s k w).pc = s.pc := by unfold setStackEntry; split <;> rfl
@[simp] theorem setStackEntry_sp (s : State) (k : Nat) (w : Word) : (setStackEntry s k w).sp = s.sp := by unfold setStackEntry; split <;> rfl
@[simp] theorem setStackEntry_dt (s : State) (k : Nat) (w : Word) : (setStackEntry s k w).dt = s.dt := by unfold setStackEntry; split <;> rfl
@[simp] theorem setStackEntry_st (s : State) (k : Nat) (w : Word) : (setStackEntry s k w).st = s.st := by unfold setStackEntry; split <;> rfl
@[simp] theorem setStackEntry_disp (s : State) (k : Nat) (w : Word) : (setStackEntry s k w).disp = s.disp := by unfold setStackEntry; split <;> rfl
@[simp] theorem setStackEntry_key (s : State) (k : Nat) (w : Word) : (setStackEntry s k w).key = s.key := by unfold setStackEntry; split <;> rfl
@[simp] theorem setStackEntry_halted (s : State) (k : Nat) (w : Word) : (setStackEntry s k w).halted = s.halted := by unfold setStackEntry; split <;> rfl
@[simp] theorem setStackEntry_fault (s : State) (k : Nat) (w : Word) : (setStackEntry s k w).fault = s.fault := by unfold setStackEntry; split <;> rfl
@[simp] theorem setStackEntry_draws (s : State) (k : Nat) (w : Word) : (setStackEntry s k w).draws = s.draws := by unfold setStackEntry; split <;> rfl
@[simp] theorem setStackEntry_config (s : State) (k : Nat) (w : Word) : (setStackEntry s k w).config = s.config := by unfold setStackEntry; split <;> rfl

/-! ### `loadRegs` -/

@[simp] theorem State.loadRegs_mem (s : State) (k : Nat) (bs : List Byte) : (s.loadRegs k bs).mem = s.mem := by
  induction bs generalizing s k with
  | nil => rfl
  | cons b bs ih => simp [State.loadRegs, ih]
@[simp] theorem State.loadRegs_index (s : State) (k : Nat) (bs : List Byte) : (s.loadRegs k bs).index = s.index := by
  induction bs generalizing s k with
  | nil => rfl
  | cons b bs ih => simp [State.loadRegs, ih]
@[simp] theorem State.loadRegs_pc (s : State) (k : Nat) (bs : List Byte) : (s.loadRegs k bs).pc = s.pc := by
  induction bs generalizing s k with
  | nil => rfl
  | cons b bs ih => simp [State.loadRegs, ih]
@[simp] theorem State.loadRegs_sp (s : State) (k : Nat) (bs : List Byte) : (s.loadRegs k bs).sp = s.sp := by
  induction bs generalizing s k with
  | nil => rfl
  | cons b bs ih => simp [State.loadRegs, ih]
@[simp] theorem State.loadRegs_stack (s : State) (k : Nat) (bs : List Byte) : (s.loadRegs k bs).stack = s.stack := by
  induction bs generalizing s k with
  | nil => rfl
  | cons b bs ih => simp [State.loadRegs, ih]
@[simp] theorem State.loadRegs_dt (s : State) (k : Nat) (bs : List Byte) : (s.loadRegs k bs).dt = s.dt := by
  induction bs generalizing s k with
  | nil => rfl
  | cons b bs ih => simp [State.loadRegs, ih]
@[simp] theorem State.loadRegs_st (s : State) (k : Nat) (bs : List Byte) : (s.loadRegs k bs).st = s.st := by
  induction bs generalizing s k with
  | nil => rfl
  | cons b bs ih => simp [State.loadRegs, ih]
@[simp] theorem State.loadRegs_disp (s : State) (k : Nat) (bs : List Byte) : (s.loadRegs k bs).disp = s.disp := by
  induction bs generalizing s k with
  | nil => rfl
  | cons b bs ih => simp [State.loadRegs, ih]
@[simp] theorem State.loadRegs_key (s : State) (k : Nat) (bs : List Byte) : (s.loadRegs k bs).key = s.key := by
  induction bs generalizing s k with
  | nil => rfl
  | cons b bs ih => simp [State.loadRegs, ih]
@[simp] theorem State.loadRegs_halted (s : State) (k : Nat) (bs : List Byte) : (s.loadRegs k bs).halted = s.halted := by
  induction bs generalizing s k with
  | nil => rfl
  | cons b bs ih => simp [State.loadRegs, ih]
@[simp] theorem State.loadRegs_fault (s : State) (k : Nat) (bs : List Byte) : (s.loadRegs k bs).fault = s.fault := by
  induction bs generalizing s k with
  | nil => rfl
  | cons b bs ih => simp [State.loadRegs, ih]
@[simp] theorem State.loadRegs_draws (s : State) (k : Nat) (bs : List Byte) : (s.loadRegs k bs).draws = s.draws := by
  induction bs generalizing s k with
  | nil => rfl
  | cons b bs ih => simp [State.loadRegs, ih]
@[simp] theorem State.loadRegs_config (s : State) (k : Nat) (bs : List Byte) : (s.loadRegs k bs).config = s.config := by
  induction bs generalizing s k with
  | nil => rfl
  | cons b bs ih => simp [State.loadRegs, ih]

/-- An update that leaves the `V` registers alone commutes with loading them. -/
theorem State.loadRegs_with (f : State → State) (hf : ∀ u x b, (f u).writeV x b = f (u.writeV x b)) (s : State)
    (k : Nat) (bs : List Byte) : (f s).loadRegs k bs = f (s.loadRegs k bs) := by
  induction bs generalizing s k with
  | nil => rfl
  | cons b bs ih => simp [State.loadRegs, hf, ih]

/-- Loading registers changes the `V` registers only. -/
theorem State.loadRegs_eq (s : State) (k : Nat) (bs : List Byte) :
    s.loadRegs k bs = { s with v := (s.loadRegs k bs).v } := by
  induction bs generalizing s k with
  | nil => rfl
  | cons b bs ih => rw [State.loadRegs, ih]; rfl

/-! ### `loadFont` -/

@[simp] theorem loadFont_mem (s : State) : (loadFont s).mem = s.mem.writeBytes 0 s.config.fontTable.toList := rfl
@[simp] theorem loadFont_v (s : State) : (loadFont s).v = s.v := rfl
@[simp] theorem loadFont_index (s : State) : (loadFont s).index = s.index := rfl
@[simp] theorem loadFont_pc (s : State) : (loadFont s).pc = s.pc := rfl
@[simp] theorem loadFont_sp (s : State) : (loadFont s).sp = s.sp := rfl
@[simp] theorem loadFont_stack (s : State) : (loadFont s).stack = s.stack := rfl
@[simp] theorem loadFont_dt (s : State) : (loadFont s).dt = s.dt := rfl
@[simp] theorem loadFont_st (s : State) : (loadFont s).st = s.st := rfl
@[simp] theorem loadFont_disp (s : State) : (loadFont s).disp = s.disp := rfl
@[simp] theorem loadFont_key (s : State) : (loadFont s).key = s.key := rfl
@[simp] theorem loadFont_halted (s : State) : (loadFont s).halted = s.halted := rfl
@[simp] theorem loadFont_fault (s : State) : (loadFont s).fault = s.fault := rfl
@[simp] theorem loadFont_draws (s : State) : (loadFont s).draws = s.draws := rfl
@[simp] theorem loadFont_config (s : State) : (loadFont s).config = s.config := rfl

/-! ### `start` -/

@[simp] theorem start_mem (s : State) : (start s).mem = s.mem := rfl
@[simp] theorem start_v (s : State) : (start s).v = s.v := rfl
@[simp] theorem start_index (s : State) : (start s).index = s.index := rfl
@[simp] theorem start_pc (s : State) : (start s).pc = BitVec.ofNat 16 progBase := rfl
@[simp] theorem start_sp (s : State) : (start s).sp = s.sp := rfl
@[simp] theorem start_stack (s : State) : (start s).stack = s.stack := rfl
@[simp] theorem start_dt (s : State) : (start s).dt = s.dt := rfl
@[simp] theorem start_st (s : State) : (start s).st = s.st := rfl
@[simp] theorem start_disp (s : State) : (start s).disp = s.disp := rfl
@[simp] theorem start_key (s : State) : (start s).key = s.key := rfl
@[simp] theorem start_halted (s : State) : (start s).halted = s.halted := rfl
@[simp] theorem start_fault (s : State) : (start s).fault = s.fault := rfl
@[simp] theorem start_draws (s : State) : (start s).draws = s.draws := rfl
@[simp] theorem start_config (s : State) : (start s).config = s.config := rfl

/-! ### `tick` -/

@[simp] theorem tick_mem (s : State) : (tick s).mem = s.mem := rfl
@[simp] theorem tick_v (s : State) : (tick s).v = s.v := rfl
@[simp] theorem tick_index (s : State) : (tick s).index = s.index := rfl
@[simp] theorem tick_pc (s : State) : (tick s).pc = s.pc := rfl
@[simp] theorem tick_sp (s : State) : (tick s).sp = s.sp := rfl
@[simp] theorem tick_stack (s : State) : (tick s).stack = s.stack := rfl
@[simp] theorem tick_dt (s : State) : (tick s).dt = countDown s.dt := rfl
@[simp] theorem tick_st (s : State) : (tick s).st = countDown s.st := rfl
@[simp] theorem tick_disp (s : State) : (tick s).disp = s.disp := rfl
@[simp] theorem tick_key (s : State) : (tick s).key = s.key := rfl
@[simp] theorem tick_halted (s : State) : (tick s).halted = s.halted := rfl
@[simp] theorem tick_fault (s : State) : (tick s).fault = s.fault := rfl
@[simp] theorem tick_draws (s : State) : (tick s).draws = s.draws := rfl
@[simp] theorem tick_config (s : State) : (tick s).config = s.config := rfl

/-! ### `placeWord` -/

@[simp] theorem placeWord_mem (s : State) (w : Word) : (placeWord w s).mem = s.mem.writeBytes s.pc.toNat (wordBytes w) := rfl
@[simp] theorem placeWord_v (s : State) (w : Word) : (placeWord w s).v = s.v := rfl
@[simp] theorem placeWord_index (s : State) (w : Word) : (placeWord w s).index = s.index := rfl
@[simp] theorem placeWord_pc (s : State) (w : Word) : (placeWord w s).pc = s.pc := rfl
@[simp] theorem placeWord_sp (s : State) (w : Word) : (placeWord w s).sp = s.sp := rfl
@[simp] theorem placeWord_stack (s : State) (w : Word) : (placeWord w s).stack = s.stack := rfl
@[simp] theorem placeWord_dt (s : State) (w : Word) : (placeWord w s).dt = s.dt := rfl
@[simp] theorem placeWord_st (s : State) (w : Word) : (placeWord w s).st = s.st := rfl
@[simp] theorem placeWord_disp (s : State) (w : Word) : (placeWord w s).disp = s.disp := rfl
@[simp] theorem placeWord_key (s : State) (w : Word) : (placeWord w s).key = s.key := rfl
@[simp] theorem placeWord_halted (s : State) (w : Word) : (placeWord w s).halted = s.halted := rfl
@[simp] theorem placeWord_fault (s : State) (w : Word) : (placeWord w s).fault = s.fault := rfl
@[simp] theorem placeWord_draws (s : State) (w : Word) : (placeWord w s).draws = s.draws := rfl
@[simp] theorem placeWord_config (s : State) (w : Word) : (placeWord w s).config = s.config := rfl

/-! ### `readyToFetch` -/

@[simp] theorem readyToFetch_mem (s : State) : (readyToFetch s).mem = s.mem := rfl
@[simp] theorem readyToFetch_v (s : State) : (readyToFetch s).v = s.v := rfl
@[simp] theorem readyToFetch_index (s : State) : (readyToFetch s).index = s.index := rfl
@[simp] theorem readyToFetch_pc (s : State) : (readyToFetch s).pc = if canFetch s then s.pc else BitVec.ofNat 16 progBase := rfl
@[simp] theorem readyToFetch_sp (s : State) : (readyToFetch s).sp = s.sp := rfl
@[simp] theorem readyToFetch_stack (s : State) : (readyToFetch s).stack = s.stack := rfl
@[simp] theorem readyToFetch_dt (s : State) : (readyToFetch s).dt = s.dt := rfl
@[simp] theorem readyToFetch_st (s : State) : (readyToFetch s).st = s.st := rfl
@[simp] theorem readyToFetch_disp (s : State) : (readyToFetch s).disp = s.disp := rfl
@[simp] theorem readyToFetch_key (s : State) : (readyToFetch s).key = s.key := rfl
@[simp] theorem readyToFetch_halted (s : State) : (readyToFetch s).halted = false := rfl
@[simp] theorem readyToFetch_fault (s : State) : (readyToFetch s).fault = none := rfl
@[simp] theorem readyToFetch_draws (s : State) : (readyToFetch s).draws = s.draws := rfl
@[simp] theorem readyToFetch_config (s : State) : (readyToFetch s).config = s.config := rfl

end Sys2Proof.Machine
end

