-- ==== Sys2Proof/Laws/Operands.lean ====
section
/-! SUPPORT. What the operand accessors read after an update, and what they answer. -/

namespace Sys2Proof.Machine

/-! ### Registers -/

theorem State.readV_congr {s t : State} (h : t.v = s.v) (r : RegNum) : t.readV r = s.readV r := by
  simp [State.readV, h]

/-- Two states with the same `V` registers, one by one, have the same register file. -/
theorem State.v_ext {s t : State} (h : ∀ r, t.readV r = s.readV r) : t.v = s.v := by
  apply Vector.ext
  intro k hk
  have hr := h (BitVec.ofNat 4 k)
  have hmod : k % 16 = k := Nat.mod_eq_of_lt hk
  simpa [State.readV, BitVec.toNat_ofNat, hmod] using hr

@[simp] theorem State.readV_writeV (s : State) (x : RegNum) (b : Byte) (r : RegNum) :
    (s.writeV x b).readV r = if x = r then b else s.readV r := by
  simp [State.readV, State.writeV, Vector.getElem_set, BitVec.toNat_inj]

@[simp] theorem State.readV_writeResultAndFlag (s : State) (x : RegNum) (b g : Byte) (r : RegNum) :
    (s.writeResultAndFlag x b g).readV r = if VF = r then g else if x = r then b else s.readV r := by
  simp [State.writeResultAndFlag]

@[simp] theorem readV_advance (s : State) (r : RegNum) : (advance s).readV r = s.readV r := rfl

@[simp] theorem readV_haltWith (s : State) (c : FaultCause) (r : RegNum) : (haltWith c s).readV r = s.readV r := rfl

@[simp] theorem readV_skipIf (s : State) (c : Bool) (r : RegNum) : (skipIf c s).readV r = s.readV r :=
  State.readV_congr (skipIf_v s c) r

/-- FX65 writes registers `k` upwards and no other. -/
theorem State.readV_loadRegs (s : State) (k : Nat) (bs : List Byte) (hk : k + bs.length ≤ 16) (r : RegNum) :
    (s.loadRegs k bs).readV r =
      if h : k ≤ r.toNat ∧ r.toNat < k + bs.length then bs[r.toNat - k]'(by omega) else s.readV r := by
  induction bs generalizing s k with
  | nil => rw [dif_neg (by simp)]; rfl
  | cons b bs ih =>
    simp only [List.length_cons] at hk
    rw [State.loadRegs, ih _ _ (by omega), State.readV_writeV]
    have hmod : (BitVec.ofNat 4 k).toNat = k := by simp only [BitVec.toNat_ofNat]; omega
    have hiff : BitVec.ofNat 4 k = r ↔ k = r.toNat := by rw [← BitVec.toNat_inj, hmod]
    by_cases hkr : k = r.toNat
    · rw [dif_neg (by omega), if_pos (hiff.2 hkr), dif_pos (by simp; omega)]
      simp [hkr]
    · rw [if_neg (fun h => hkr (hiff.1 h))]
      by_cases hin : k + 1 ≤ r.toNat ∧ r.toNat < k + 1 + bs.length
      · rw [dif_pos hin, dif_pos (by simp; omega), List.getElem_cons, dif_neg (by omega)]
        congr 1
      · rw [dif_neg hin, dif_neg (by simp; omega)]

@[simp] theorem State.length_firstRegs (s : State) (n : Nat) : (s.firstRegs n).length = n := by
  simp [State.firstRegs]

theorem State.getElem_firstRegs (s : State) (n k : Nat) (h : k < (s.firstRegs n).length) :
    (s.firstRegs n)[k] = s.readV (BitVec.ofNat 4 k) := by
  simp [State.firstRegs]

/-! ### Keys -/

theorem State.keyAt_eq_none_iff (s : State) (k : Nat) : s.keyAt k = none ↔ 16 ≤ k := by
  simp [State.keyAt]

theorem State.keyAt_of_lt (s : State) {k : Nat} (h : k < 16) : s.keyAt k = some s.key[k] := by
  simp [State.keyAt, h]

theorem State.firstKeyDown_eq_none_iff (s : State) :
    s.firstKeyDown = none ↔ ∀ k (h : k < 16), s.key[k] = false := by
  simp only [State.firstKeyDown, List.find?_eq_none, List.mem_range, decide_eq_true_eq]
  constructor
  · intro h k hk
    have := h k hk
    rw [State.keyAt_of_lt s hk] at this
    simpa using this
  · intro h k hk
    rw [State.keyAt_of_lt s hk]
    simp [h k hk]

/-- The answer is a key that is down, and every lower key is up. -/
theorem State.firstKeyDown_eq_some_iff (s : State) (k : Nat) :
    s.firstKeyDown = some k ↔
      ∃ h : k < 16, s.key[k] = true ∧ ∀ j (hj : j < k), s.key[j] = false := by
  rw [State.firstKeyDown, List.find?_eq_some_iff_getElem]
  simp only [decide_eq_true_eq, List.length_range, List.getElem_range]
  constructor
  · rintro ⟨hdown, i, hi, rfl, hlow⟩
    have hi : i < 16 := hi
    refine ⟨hi, by simpa [State.keyAt_of_lt s hi] using hdown, fun j hj => ?_⟩
    have := hlow j hj
    rw [State.keyAt_of_lt s (show j < 16 by omega)] at this
    simpa using this
  · rintro ⟨hk, hdown, hlow⟩
    refine ⟨by simp [State.keyAt_of_lt s hk, hdown], k, hk, rfl, fun j hj => ?_⟩
    simp [State.keyAt_of_lt s (show j < 16 by omega), hlow j hj]

/-! ### The stack -/

theorem stackEntry_of_lt (s : State) {k : Nat} (h : k < 16) : stackEntry s k = some s.stack[k] := by
  simp [stackEntry, h]

theorem stackEntry_eq_none_iff (s : State) (k : Nat) : stackEntry s k = none ↔ 16 ≤ k := by
  simp [stackEntry]

theorem getElem_setStackEntry (s : State) (k : Nat) (w : Word) (j : Nat) (hj : j < 16) :
    (setStackEntry s k w).stack[j] = if k = j then w else s.stack[j] := by
  unfold setStackEntry
  split
  · simp [Vector.getElem_set]
  · rw [if_neg (by omega)]

end Sys2Proof.Machine
end

