-- ==== Sys2Proof/Laws/Exec.lean ====
section
/-! SUPPORT. Everything a shared operation can do, one lemma each: a raised fault, a store at `I`, a key test, a
skip. -/

namespace Sys2Proof.Machine

/-- A raised fault changes `pc` back to the instruction and sets the fault state; nothing else changes (R201). -/
theorem raise_eq (cause : Word → FaultCause) (s : State) :
    raise cause s = .next { s with pc := s.pc - 2, halted := true, fault := some (cause (s.pc - 2)) } := rfl

/-- Raised after the fetch, a fault leaves the state before the step, halted (R201). -/
theorem raise_advance (cause : Word → FaultCause) (s : State) :
    raise cause (advance s) = .next (haltWith (cause s.pc) s) := by
  simp [raise, haltWith, advance]

/-- A store at `I` that fits is done whole. -/
theorem storeAtIndex_fits {bytes : List Byte} {s : State} (h : bytes = [] ∨ s.index.toNat + bytes.length ≤ memSize) :
    storeAtIndex bytes s = .next { s with mem := s.mem.writeBytes s.index.toNat bytes } := by
  have : badAddress s.index.toNat bytes.length = none :=
    (badAddress_eq_none_iff _ _).2 (h.imp (by rintro rfl; rfl) id)
  simp [storeAtIndex, this]

/-- A store at `I` either is done whole or raises the lowest bad address. -/
theorem storeAtIndex_cases (bytes : List Byte) (s : State) :
    (badAddress s.index.toNat bytes.length = none ∧
      storeAtIndex bytes s = .next { s with mem := s.mem.writeBytes s.index.toNat bytes }) ∨
    ∃ addr, badAddress s.index.toNat bytes.length = some addr ∧
      storeAtIndex bytes s = raise (.memOutOfRange addr) s := by
  unfold storeAtIndex
  cases h : badAddress s.index.toNat bytes.length with
  | none => exact .inl ⟨rfl, rfl⟩
  | some addr => exact .inr ⟨addr, rfl, rfl⟩

/-- A key test skips on an existing key in the wanted state, goes on when it is in the other, and raises above 15. -/
theorem skipOnKey_cases (x : RegNum) (down : Bool) (s : State) :
    (∃ h : (s.readV x).toNat < 16, skipOnKey x down s = .next (skipIf (s.key[(s.readV x).toNat] = down) s)) ∨
    (15 < (s.readV x).toNat ∧ skipOnKey x down s = raise (.keyIndexOutOfRange (s.readV x)) s) := by
  unfold skipOnKey
  by_cases h : (s.readV x).toNat < 16
  · rw [State.keyAt_of_lt s h]
    exact .inl ⟨h, rfl⟩
  · rw [(State.keyAt_eq_none_iff s _).2 (by omega)]
    exact .inr ⟨by omega, rfl⟩

@[simp] theorem length_bcdDigits (b : Byte) : (bcdDigits b).length = 3 := rfl

@[simp] theorem mapNext_next (f : State → State) (s : State) : mapNext f (.next s) = .next (f s) := rfl

/-- The bounds check reports an address exactly when it is the lowest that does not exist (R205). -/
theorem badAddress_eq_some_iff {base n addr : Nat} : badAddress base n = some addr ↔ LowestBadAddress base n addr := by
  refine ⟨badAddress_eq_some, ?_⟩
  rintro ⟨h1, h2, h3, h4⟩
  cases hb : badAddress base n with
  | none => have := (badAddress_eq_none_iff base n).1 hb; omega
  | some c =>
    obtain ⟨g1, g2, g3, g4⟩ := badAddress_eq_some hb
    rcases Nat.lt_trichotomy c addr with hh | hh | hh
    · have := h4 c g1 hh; omega
    · rw [hh]
    · have := g4 addr h1 hh; omega

/-- An instruction raises a fault of its own that names its address, or goes on with the fault state as it was, or is RET and reads
past the stack. -/
theorem exec_cases (i : Instr) (s : State) :
    (canFault i = true ∧ ∃ c, (∀ a, (c a).address = a) ∧ (∀ a b, c a ≠ .fetchOutOfRange b) ∧ exec i s = raise c s) ∨
    (∃ t, exec i s = .next t ∧ t.halted = s.halted ∧ t.fault = s.fault) ∨
    (i = .ret ∧ 15 < s.sp.toNat ∧ exec i s = .fault (.stackReadOutOfRange s.sp)) := by
  cases i
  case ret =>
    by_cases h : s.sp.toNat < 16
    · right; left; simp [exec, execRet, stackEntry_of_lt s h]
    · right; right; simp [exec, execRet, (stackEntry_eq_none_iff s _).2 (show 16 ≤ s.sp.toNat by omega)]; omega
  case call nnn =>
    simp only [exec, execCall]
    split
    · left; exact ⟨rfl, _, fun _ => rfl, fun _ _ => by simp, rfl⟩
    · right; left; simp
  case skp x =>
    rcases skipOnKey_cases x true s with ⟨h, h1⟩ | ⟨h, h1⟩
    · right; left; simp [exec, execSkp, h1]
    · left; simp only [exec, execSkp, h1]; exact ⟨rfl, _, fun _ => rfl, fun _ _ => by simp, rfl⟩
  case sknp x =>
    rcases skipOnKey_cases x false s with ⟨h, h1⟩ | ⟨h, h1⟩
    · right; left; simp [exec, execSknp, h1]
    · left; simp only [exec, execSknp, h1]; exact ⟨rfl, _, fun _ => rfl, fun _ _ => by simp, rfl⟩
  case drw x y n =>
    simp only [exec, execDrw]
    split
    · left; exact ⟨rfl, _, fun _ => rfl, fun _ _ => by simp, rfl⟩
    · right; left; simp
  case ldRegs x =>
    simp only [exec, execLdRegs]
    split
    · left; exact ⟨rfl, _, fun _ => rfl, fun _ _ => by simp, rfl⟩
    · right; left; simp
  case ldB x =>
    simp only [exec, execLdB]
    rcases storeAtIndex_cases (bcdDigits (s.readV x)) s with ⟨h, h1⟩ | ⟨c, h, h1⟩
    · right; left; simp [h1]
    · left; rw [h1]; exact ⟨rfl, _, fun _ => rfl, fun _ _ => by simp, rfl⟩
  case stRegs x =>
    simp only [exec, execStRegs]
    rcases storeAtIndex_cases (s.firstRegs (x.toNat + 1)) s with ⟨h, h1⟩ | ⟨c, h, h1⟩
    · right; left; simp [h1]
    · left; rw [h1]; exact ⟨rfl, _, fun _ => rfl, fun _ _ => by simp, rfl⟩
  case ldVxK x =>
    right; left
    simp only [exec, execLdVxK]; split <;> simp
  all_goals
    right; left
    simp [exec, execCls, execJp, execSeImm, execSneImm, execSeReg, execSneReg, execLdImm, execAddImm, execLdReg, execOrReg,
      execAndReg, execXorReg, execAddReg, execSub, execSubn, execShr, execShl, execLdI, execJpV0, execRnd, rndWith,
      execLdVxDt, execLdDt, execLdSt, execAddI, execLdF]

end Sys2Proof.Machine
end

