-- ==== Sys2Proof/Laws/PerInstr.lean ====
section
/-! SUPPORT. Facts about every instruction as syntax, one lemma per constructor: the encoder's word decodes back to the
instruction. -/

namespace Sys2Proof.Laws

/-! ### Decoding an encoded instruction gives it back (R72, R75, R82) -/

/-- Under either value of `StrictDecode`, the word of a well-formed instruction decodes to it. -/
def RoundTrip.Statement (i : Instr) : Prop := i.wellFormed = true → ∀ strict, decodeWord strict (encode i) = .ok i

theorem RoundTrip.cls : RoundTrip.Statement .cls := fun _ strict => by
  cases strict <;> rfl

theorem RoundTrip.ret : RoundTrip.Statement .ret := fun _ strict => by
  cases strict <;> rfl

theorem RoundTrip.jp (nnn : Word) : RoundTrip.Statement (.jp nnn) := fun h strict => by
  simp [encode, decodeWord, fieldNNN_wordNNN _ h]

theorem RoundTrip.call (nnn : Word) : RoundTrip.Statement (.call nnn) := fun h strict => by
  simp [encode, decodeWord, fieldNNN_wordNNN _ h]

theorem RoundTrip.seImm (x : RegNum) (nn : Byte) : RoundTrip.Statement (.seImm x nn) := fun _ strict => by
  simp [encode, decodeWord]

theorem RoundTrip.sneImm (x : RegNum) (nn : Byte) : RoundTrip.Statement (.sneImm x nn) := fun _ strict => by
  simp [encode, decodeWord]

theorem RoundTrip.seReg (x : RegNum) (y : RegNum) : RoundTrip.Statement (.seReg x y) := fun _ strict => by
  simp [encode, decodeWord, decodeCompare]

theorem RoundTrip.ldImm (x : RegNum) (nn : Byte) : RoundTrip.Statement (.ldImm x nn) := fun _ strict => by
  simp [encode, decodeWord]

theorem RoundTrip.addImm (x : RegNum) (nn : Byte) : RoundTrip.Statement (.addImm x nn) := fun _ strict => by
  simp [encode, decodeWord]

theorem RoundTrip.ldReg (x : RegNum) (y : RegNum) : RoundTrip.Statement (.ldReg x y) := fun _ strict => by
  simp [encode, decodeWord, decodeFamily8]

theorem RoundTrip.orReg (x : RegNum) (y : RegNum) : RoundTrip.Statement (.orReg x y) := fun _ strict => by
  simp [encode, decodeWord, decodeFamily8]

theorem RoundTrip.andReg (x : RegNum) (y : RegNum) : RoundTrip.Statement (.andReg x y) := fun _ strict => by
  simp [encode, decodeWord, decodeFamily8]

theorem RoundTrip.xorReg (x : RegNum) (y : RegNum) : RoundTrip.Statement (.xorReg x y) := fun _ strict => by
  simp [encode, decodeWord, decodeFamily8]

theorem RoundTrip.addReg (x : RegNum) (y : RegNum) : RoundTrip.Statement (.addReg x y) := fun _ strict => by
  simp [encode, decodeWord, decodeFamily8]

theorem RoundTrip.sub (x : RegNum) (y : RegNum) : RoundTrip.Statement (.sub x y) := fun _ strict => by
  simp [encode, decodeWord, decodeFamily8]

theorem RoundTrip.shr (x : RegNum) (y : RegNum) : RoundTrip.Statement (.shr x y) := fun _ strict => by
  simp [encode, decodeWord, decodeFamily8]

theorem RoundTrip.subn (x : RegNum) (y : RegNum) : RoundTrip.Statement (.subn x y) := fun _ strict => by
  simp [encode, decodeWord, decodeFamily8]

theorem RoundTrip.shl (x : RegNum) (y : RegNum) : RoundTrip.Statement (.shl x y) := fun _ strict => by
  simp [encode, decodeWord, decodeFamily8]

theorem RoundTrip.sneReg (x : RegNum) (y : RegNum) : RoundTrip.Statement (.sneReg x y) := fun _ strict => by
  simp [encode, decodeWord, decodeCompare]

theorem RoundTrip.ldI (nnn : Word) : RoundTrip.Statement (.ldI nnn) := fun h strict => by
  simp [encode, decodeWord, fieldNNN_wordNNN _ h]

theorem RoundTrip.jpV0 (nnn : Word) : RoundTrip.Statement (.jpV0 nnn) := fun h strict => by
  simp [encode, decodeWord, fieldNNN_wordNNN _ h]

theorem RoundTrip.rnd (x : RegNum) (nn : Byte) : RoundTrip.Statement (.rnd x nn) := fun _ strict => by
  simp [encode, decodeWord]

theorem RoundTrip.drw (x : RegNum) (y : RegNum) (n : Nat) : RoundTrip.Statement (.drw x y n) := fun h strict => by
  simp [encode, decodeWord, toNat_ofNat_of_rowCountFits h]

theorem RoundTrip.skp (x : RegNum) : RoundTrip.Statement (.skp x) := fun _ strict => by
  simp [encode, decodeWord, decodeFamilyE]

theorem RoundTrip.sknp (x : RegNum) : RoundTrip.Statement (.sknp x) := fun _ strict => by
  simp [encode, decodeWord, decodeFamilyE]

theorem RoundTrip.ldVxDt (x : RegNum) : RoundTrip.Statement (.ldVxDt x) := fun _ strict => by
  simp [encode, decodeWord, decodeFamilyF]

theorem RoundTrip.ldVxK (x : RegNum) : RoundTrip.Statement (.ldVxK x) := fun _ strict => by
  simp [encode, decodeWord, decodeFamilyF]

theorem RoundTrip.ldDt (x : RegNum) : RoundTrip.Statement (.ldDt x) := fun _ strict => by
  simp [encode, decodeWord, decodeFamilyF]

theorem RoundTrip.ldSt (x : RegNum) : RoundTrip.Statement (.ldSt x) := fun _ strict => by
  simp [encode, decodeWord, decodeFamilyF]

theorem RoundTrip.addI (x : RegNum) : RoundTrip.Statement (.addI x) := fun _ strict => by
  simp [encode, decodeWord, decodeFamilyF]

theorem RoundTrip.ldF (x : RegNum) : RoundTrip.Statement (.ldF x) := fun _ strict => by
  simp [encode, decodeWord, decodeFamilyF]

theorem RoundTrip.ldB (x : RegNum) : RoundTrip.Statement (.ldB x) := fun _ strict => by
  simp [encode, decodeWord, decodeFamilyF]

theorem RoundTrip.stRegs (x : RegNum) : RoundTrip.Statement (.stRegs x) := fun _ strict => by
  simp [encode, decodeWord, decodeFamilyF]

theorem RoundTrip.ldRegs (x : RegNum) : RoundTrip.Statement (.ldRegs x) := fun _ strict => by
  simp [encode, decodeWord, decodeFamilyF]

end Sys2Proof.Laws
end

