-- ==== Sys2Proof/Laws/Step.lean ====
section
/-! SUPPORT. What one step can do (R205, R224), and that the word `withFetchWord` places is the one a step fetches. -/

namespace Sys2Proof.Machine

theorem step_of_halted {s : State} (h : s.halted = true) : step s = .next s := by
  simp [step, h]

/-- A state that a step leaves as it is stays so for any number of steps. -/
theorem stepN_fixed {s : State} (h : step s = .next s) : ∀ n, stepN n s = .next s := by
  intro n
  induction n with
  | zero => rfl
  | succ n ih => simp [stepN, h, ih]

/-- A step answers a next state or stops on a fault of the model; it never refuses. -/
theorem step_ne_refused (s : State) (r : Refusal) : step s ≠ .refused r := by
  intro h
  by_cases hh : s.halted = true
  · simp [step, hh] at h
  · unfold step at h
    rw [if_neg hh] at h
    split at h
    · split at h
      · rename_i i _
        rcases exec_cases i (advance s) with ⟨-, c, -, -, he⟩ | ⟨t, he, -⟩ | ⟨-, -, he⟩ <;> rw [he] at h <;> cases h
      · cases h
    · cases h

/-- Commands given in two parts. -/
theorem runCommands_append (cs ds : List Command) (s : State) :
    runCommands (cs ++ ds) s =
      match runCommands cs s with
      | .next t => runCommands ds t
      | .fault r => .fault r
      | .refused r => .refused r := by
  induction cs generalizing s with
  | nil => rfl
  | cons c cs ih =>
    simp only [List.cons_append, runCommands]
    cases runCommand c s with
    | next t => exact ih t
    | fault r => rfl
    | refused r => exact ih s

/-- A run in which the host only steps is `stepN`. -/
theorem runCommands_replicate_step (n : Nat) (s : State) : runCommands (List.replicate n .step) s = stepN n s := by
  induction n generalizing s with
  | zero => rfl
  | succ n ih =>
    simp only [List.replicate_succ, runCommands, runCommand, stepN]
    cases h : step s with
    | next t => exact ih t
    | fault r => rfl
    | refused r => exact absurd h (step_ne_refused s r)

theorem canFetch_iff (s : State) : canFetch s = true ↔ s.pc.toNat + 1 < memSize := by
  simp [canFetch]

/-- A step of a block that is not halted: fetch out of range, an illegal word, or the decoded instruction. -/
theorem step_cases {s : State} (h : s.halted = false) :
    (memSize ≤ s.pc.toNat + 1 ∧ step s = .next (haltWith (.fetchOutOfRange s.pc) s)) ∨
    (s.pc.toNat + 1 < memSize ∧ decodeWord s.config.strictDecode (fetchWord s) = .error (.illegalWord (fetchWord s)) ∧
      step s = .next (haltWith (.decodeError (fetchWord s) s.pc) s)) ∨
    ∃ i, Fetches s i ∧ step s = exec i (advance s) := by
  by_cases hf : s.pc.toNat + 1 < memSize
  · have hc := (canFetch_iff s).2 hf
    cases hd : decodeWord s.config.strictDecode (fetchWord s) with
    | error e =>
      refine .inr (.inl ⟨hf, by rw [decodeWord_error hd], ?_⟩)
      simp [step, h, hc, hd]
    | ok i =>
      refine .inr (.inr ⟨i, ⟨hf, hd⟩, ?_⟩)
      simp [step, h, hc, hd]
  · have hc : canFetch s = false := by simp [canFetch]; omega
    exact .inl ⟨by omega, by simp [step, h, hc]⟩

theorem step_eq_exec {s : State} {i : Instr} (h : s.halted = false) (hi : Fetches s i) :
    step s = exec i (advance s) := by
  have hc := (canFetch_iff s).2 hi.1
  simp [step, h, hc, hi.2]

/-- The placed word is the one at `pc`. -/
theorem fetchWord_placeWord {s : State} (hm : s.mem.wf = true) (hf : s.pc.toNat + 1 < memSize) (w : Word) :
    fetchWord (placeWord w s) = w := by
  have hlen : s.pc.toNat + (wordBytes w).length ≤ memSize := by simp [wordBytes]; omega
  have h0 := Memory.read_writeBytes (bs := wordBytes w) hm hlen s.pc.toNat
  have h1 := Memory.read_writeBytes (bs := wordBytes w) hm hlen (s.pc.toNat + 1)
  rw [dif_pos (by simp [wordBytes])] at h0 h1
  simp only [fetchWord, placeWord_mem, placeWord_pc, h0, h1]
  simp [wordBytes]

theorem canFetch_readyToFetch (s : State) : canFetch (readyToFetch s) = true := by
  by_cases h : canFetch s = true
  · have hp : (readyToFetch s).pc = s.pc := by simp [h]
    rw [canFetch, hp]; exact h
  · have hp : (readyToFetch s).pc = BitVec.ofNat 16 progBase := by simp [h]
    rw [canFetch, hp]; decide

/-- `withFetchWord` makes the very next step run the instruction of the word, in any state with canonical memory. -/
theorem step_withFetchWord {s : State} (hm : s.mem.wf = true) (w : Word) {i : Instr}
    (hi : decodeWord s.config.strictDecode w = .ok i) :
    step (s.withFetchWord 16 w.toNat) = exec i (advance (placeWord w (readyToFetch s))) := by
  have hw : w.toNat % 2 ^ 16 = w.toNat := Nat.mod_eq_of_lt w.isLt
  have ht : tableWord 16 w.toNat = some w := by
    rw [tableWord, hw, if_pos w.isLt, BitVec.ofNat_toNat, BitVec.setWidth_eq]
  have hs : s.withFetchWord 16 w.toNat = placeWord w (readyToFetch s) := by rw [State.withFetchWord, ht]
  have hf := (canFetch_iff _).1 (canFetch_readyToFetch s)
  rw [hs]
  refine step_eq_exec (by simp) ⟨by simpa using hf, ?_⟩
  rw [fetchWord_placeWord (by simpa using hm) hf]
  simpa using hi

end Sys2Proof.Machine
end

