-- ==== Sys2Proof/Tests/Slice0.lean ====
section
/-! SUPPORT. The model's own tests: ill-formed terms, words written out from the opcode map (30_encoding.md R75), one or two
single steps per instruction, and states that meet the hypotheses of the obligations. Expected results come from the
vectors of 95_test_vectors.md, whose numbers the docstrings give, and from the worked examples in the rules. -/

open Sys2Proof Sys2Proof.Machine

namespace Sys2Proof.Tests

/-! ## Small states -/

/-- Reset, with `pc` at 0x200. -/
def at200 : State := { State.reset with pc := 0x200 }

/-- The state with the given `V` registers. -/
def withV (regs : List (RegNum × Byte)) (s : State) : State := regs.foldl (fun s p => s.writeV p.1 p.2) s

/-- The state with the bytes in memory from the address. -/
def withBytes (a : Nat) (bytes : List Byte) (s : State) : State := { s with mem := s.mem.writeBytes a bytes }

/-- The state with cells turned on in a dark display. -/
def withLit (cells : List (Nat × Nat)) (s : State) : State :=
  { s with disp := cells.foldl (fun d c => d.toggle c.1 c.2) Display.dark }

/-- The state with the keys down. -/
def withKeys (keys : List (Fin 16)) (s : State) : State := { s with key := keys.foldl (fun k j => k.set j.val true j.isLt) s.key }

/-- The state one outcome leads to. -/
def nextOf : Result → Option State
  | .next s => some s
  | .fault _ => none
  | .refused _ => none

/-- One step that runs the word at `pc`. -/
def run (w : Word) (s : State) : Option State := nextOf (step (placeWord w s))

/-- What one step of the word leaves, seen through `f`. -/
def see {α : Type} (w : Word) (s : State) (f : State → α) : Option α := (run w s).map f

/-- The fault state after one step of the word. -/
def faultOf (w : Word) (s : State) : Option (Bool × Option FaultCause × Word) :=
  see w s fun t => (t.halted, t.fault, t.pc)

/-- Those of the given cells, as (column, row), that are lit. -/
def litOf (cells : List (Nat × Nat)) (s : State) : List (Nat × Nat) := cells.filter fun c => s.disp.lit c.1 c.2

/-! ## Well-formedness refuses what has no encoding (R72) -/

theorem test_wellFormed_jp : (Instr.jp 0x1000).wellFormed = false ∧ (Instr.jp 0xFFF).wellFormed = true := by decide
theorem test_wellFormed_call : (Instr.call 0xFFFF).wellFormed = false ∧ (Instr.call 0xFFF).wellFormed = true := by decide
theorem test_wellFormed_ldI : (Instr.ldI 0x1000).wellFormed = false ∧ (Instr.ldI 0xFFF).wellFormed = true := by decide
theorem test_wellFormed_jpV0 : (Instr.jpV0 0x1000).wellFormed = false ∧ (Instr.jpV0 0).wellFormed = true := by decide
theorem test_wellFormed_drw : (Instr.drw 0 0 16).wellFormed = false ∧ (Instr.drw 0xF 0xF 15).wellFormed = true := by decide

/-! ## Decoding words written out bit by bit (R75) -/

/-- Families 0x0, 0x1, 0x2: rows 1 to 4. -/
theorem test_decode_family0_1_2 :
    decodeTableWord 16 0b0000000011100000 = some .cls ∧ decodeTableWord 16 0b0000000011101110 = some .ret ∧
    decodeTableWord 16 0b0001101010111100 = some (.jp 0xABC) ∧ decodeTableWord 16 0b0010001000010000 = some (.call 0x210) := by
  decide

/-- Families 0x3, 0x4, 0x5, 0x9: the skips, rows 5, 6, 7, 19. -/
theorem test_decode_skips :
    decodeTableWord 16 0b0011001101000010 = some (.seImm 3 0x42) ∧
    decodeTableWord 16 0b0100001101000010 = some (.sneImm 3 0x42) ∧
    decodeTableWord 16 0b0101000100100000 = some (.seReg 1 2) ∧
    decodeTableWord 16 0b1001101010110000 = some (.sneReg 0xA 0xB) := by decide

/-- Families 0x6 and 0x7: rows 8 and 9. -/
theorem test_decode_immediates :
    decodeTableWord 16 0b0110101000001111 = some (.ldImm 0xA 0x0F) ∧
    decodeTableWord 16 0b0111001100000010 = some (.addImm 3 0x02) := by decide

/-- Family 0x8: rows 10 to 18. -/
theorem test_decode_family8 :
    decodeTableWord 16 0b1000000101010000 = some (.ldReg 1 5) ∧ decodeTableWord 16 0b1000000100100001 = some (.orReg 1 2) ∧
    decodeTableWord 16 0b1000000100100010 = some (.andReg 1 2) ∧ decodeTableWord 16 0b1000000100100011 = some (.xorReg 1 2) ∧
    decodeTableWord 16 0b1000101010110100 = some (.addReg 0xA 0xB) ∧ decodeTableWord 16 0b1000101010110101 = some (.sub 0xA 0xB) ∧
    decodeTableWord 16 0b1000000100100110 = some (.shr 1 2) ∧ decodeTableWord 16 0b1000000100100111 = some (.subn 1 2) ∧
    decodeTableWord 16 0b1000000100101110 = some (.shl 1 2) := by decide

/-- Families 0xA to 0xD: rows 20 to 23. -/
theorem test_decode_familyA_to_D :
    decodeTableWord 16 0b1010001100000000 = some (.ldI 0x300) ∧ decodeTableWord 16 0b1011001000000110 = some (.jpV0 0x206) ∧
    decodeTableWord 16 0b1100001100001111 = some (.rnd 3 0x0F) ∧ decodeTableWord 16 0b1101000000010101 = some (.drw 0 1 5) := by
  decide

/-- Family 0xE: rows 24 and 25. -/
theorem test_decode_familyE :
    decodeTableWord 16 0b1110010110011110 = some (.skp 5) ∧ decodeTableWord 16 0b1110010110100001 = some (.sknp 5) := by decide

/-- Family 0xF: rows 26 to 34. -/
theorem test_decode_familyF :
    decodeTableWord 16 0b1111001100000111 = some (.ldVxDt 3) ∧ decodeTableWord 16 0b1111010000001010 = some (.ldVxK 4) ∧
    decodeTableWord 16 0b1111001100010101 = some (.ldDt 3) ∧ decodeTableWord 16 0b1111001100011000 = some (.ldSt 3) ∧
    decodeTableWord 16 0b1111001000011110 = some (.addI 2) ∧ decodeTableWord 16 0b1111000100101001 = some (.ldF 1) ∧
    decodeTableWord 16 0b1111101000110011 = some (.ldB 0xA) ∧ decodeTableWord 16 0b1111001001010101 = some (.stRegs 2) ∧
    decodeTableWord 16 0b1111000101100101 = some (.ldRegs 1) := by decide

/-- Vectors D1 to D9: illegal words. -/
theorem test_decode_refuses :
    decodeTableWord 16 0x0000 = none ∧ decodeTableWord 16 0x0123 = none ∧ decodeTableWord 16 0x00E1 = none ∧
    decodeTableWord 16 0x8AB8 = none ∧ decodeTableWord 16 0x8ABF = none ∧ decodeTableWord 16 0xE0FF = none ∧
    decodeTableWord 16 0xF0FF = none ∧ decodeTableWord 16 0xF090 = none ∧ decodeTableWord 16 0x5121 = none ∧
    decodeTableWord 16 0x01E0 = none := by decide

/-- Vector D10, and R80 for family 0x0: without `StrictDecode` the don't-care bits are ignored. -/
theorem test_decode_lax :
    decodeWord false 0x5121 = .ok (.seReg 1 2) ∧ decodeWord false 0x912F = .ok (.sneReg 1 2) ∧
    decodeWord false 0x0AE0 = .ok .cls ∧ decodeWord false 0x0123 = .error (.illegalWord 0x0123) := by decide

/-- A byte that is missing or left over: R51, R73. -/
theorem test_decode_bytes :
    decode true [0x1A, 0xBC, 0x00] = .ok (.jp 0xABC, [0x00]) ∧ decode true [0x1A] = .error .truncated ∧
    encodeBytes (.ldImm 0xA 0x0F) = [0x6A, 0x0F] := by decide

/-! ## Control transfer -/

/-- C1, and D14: a jump fetched at the top of memory. -/
theorem test_jp : see 0x1ABC at200 State.pc = some 0xABC ∧ see 0x1200 { at200 with pc := 0xFFE } State.pc = some 0x200 := by
  decide

/-- C2. -/
theorem test_call : see 0x2300 at200 (fun t => (t.sp, t.stack[1], t.pc)) = some (1, 0x202, 0x300) := by decide

/-- C3, C4. -/
theorem test_call_parameters_and_overflow :
    see 0x2300 { at200 with config := { Config.default with callLink := .preFetch } } (fun t => (t.sp, t.stack[1], t.pc)) =
      some (1, 0x200, 0x300) ∧
    faultOf 0x2300 { at200 with sp := 15 } = some (true, some (.stackOverflow 16 0x200), 0x200) := by decide

/-- C5. -/
theorem test_ret : see 0x00EE { at200 with sp := 3, stack := at200.stack.set 3 0x456 }
    (fun t => (t.pc, t.sp, t.stack[3])) = some (0x456, 2, 0x456) := by decide

/-- C6. -/
theorem test_ret_on_empty_stack : see 0x00EE at200 (fun t => (t.pc, t.sp)) = some (0, 0) := by decide

/-- C8, C9. -/
theorem test_seImm : see 0x3342 (withV [(3, 0x42)] at200) State.pc = some 0x204 ∧
    see 0x3342 (withV [(3, 0x41)] at200) State.pc = some 0x202 := by decide

/-- C10. -/
theorem test_sneImm : see 0x4342 (withV [(3, 0x41)] at200) State.pc = some 0x204 ∧
    see 0x4342 (withV [(3, 0x42)] at200) State.pc = some 0x202 := by decide

/-- C11. -/
theorem test_seReg : see 0x5120 (withV [(1, 7), (2, 7)] at200) State.pc = some 0x204 ∧
    see 0x5120 (withV [(1, 7), (2, 8)] at200) State.pc = some 0x202 := by decide

/-- C12. -/
theorem test_sneReg : see 0x9120 (withV [(1, 7), (2, 8)] at200) State.pc = some 0x204 ∧
    see 0x9120 (withV [(1, 7), (2, 7)] at200) State.pc = some 0x202 := by decide

/-- C15, C16. -/
theorem test_jpV0 : see 0xBFFF (withV [(0, 0xFF)] at200) State.pc = some 0x10FE ∧
    see 0xBFFF { withV [(0, 0xFF)] at200 with config := { Config.default with jumpOffsetMask := .mask12 } } State.pc =
      some 0x0FE := by decide

/-! ## Register ALU -/

/-- A1. -/
theorem test_ldImm : see 0x6A0F at200 (fun t => (t.readV 0xA, t.pc)) = some (0x0F, 0x202) := by decide

/-- A2. -/
theorem test_ldReg : see 0x8150 (withV [(5, 0x33)] at200) (fun t => t.readV 1) = some 0x33 := by decide

/-- A3. -/
theorem test_orReg : see 0x8121 (withV [(1, 0xF0), (2, 0x0F), (0xF, 9)] at200) (fun t => (t.readV 1, t.readV VF)) =
    some (0xFF, 9) := by decide

/-- A4. -/
theorem test_andReg : see 0x8122 (withV [(1, 0xF3), (2, 0x3F)] at200) (fun t => t.readV 1) = some 0x33 := by decide

/-- A5, A6. -/
theorem test_xorReg : see 0x8123 (withV [(1, 0xFF), (2, 0x0F)] at200) (fun t => t.readV 1) = some 0xF0 ∧
    see 0x8113 (withV [(1, 0xAA)] at200) (fun t => t.readV 1) = some 0 := by decide

/-- W7. -/
theorem test_addImm : see 0x7302 (withV [(3, 0xFF), (0xF, 0x55)] at200) (fun t => (t.readV 3, t.readV VF, t.pc)) =
    some (0x01, 0x55, 0x202) := by decide

/-- W8, A10. -/
theorem test_addReg : see 0x8AB4 (withV [(0xA, 0xFF), (0xB, 0x02)] at200) (fun t => (t.readV 0xA, t.readV VF)) =
      some (0x01, 1) ∧
    see 0x8124 (withV [(1, 0x7F), (2, 0x80)] at200) (fun t => (t.readV 1, t.readV VF)) = some (0xFF, 0) := by
  decide

/-- A11, A12, A13: `VF` as an operand. -/
theorem test_addReg_on_VF : see 0x8F14 (withV [(0xF, 0xFF), (1, 1)] at200) (fun t => t.readV VF) = some 1 ∧
    see 0x8F14 (withV [(0xF, 0x10), (1, 1)] at200) (fun t => t.readV VF) = some 0 ∧
    see 0x81F4 (withV [(1, 5), (0xF, 0x10)] at200) (fun t => (t.readV 1, t.readV VF)) = some (0x15, 0) := by decide

/-- W11, A17. -/
theorem test_sub : see 0x8AB5 (withV [(0xA, 0), (0xB, 2)] at200) (fun t => (t.readV 0xA, t.readV VF)) = some (0xFE, 0) ∧
    see 0x8F45 (withV [(0xF, 9), (4, 4)] at200) (fun t => t.readV VF) = some 1 := by decide

/-- A14, A15. -/
theorem test_sub_equal : see 0x8125 (withV [(1, 5), (2, 5)] at200) (fun t => (t.readV 1, t.readV VF)) = some (0, 0) ∧
    see 0x8125 { withV [(1, 5), (2, 5)] at200 with config := { Config.default with subFlagOnEqual := true } }
      (fun t => (t.readV 1, t.readV VF)) = some (0, 1) := by decide

/-- A18, A19. -/
theorem test_subn : see 0x8127 (withV [(1, 4), (2, 9)] at200) (fun t => (t.readV 1, t.readV VF)) = some (5, 1) ∧
    see 0x8127 (withV [(1, 9), (2, 4)] at200) (fun t => (t.readV 1, t.readV VF)) = some (0xFB, 0) := by decide

/-- A21, A23. -/
theorem test_shr : see 0x8126 (withV [(1, 1), (2, 0xFE)] at200) (fun t => (t.readV 1, t.readV VF)) = some (0, 1) ∧
    see 0x8126 { withV [(1, 1), (2, 0xFE)] at200 with config := { Config.default with shiftSource := .vy } }
      (fun t => (t.readV 1, t.readV VF)) = some (0x7F, 0) := by decide

/-- A25, A27. -/
theorem test_shl : see 0x810E (withV [(1, 0x41)] at200) (fun t => (t.readV 1, t.readV VF)) = some (0x82, 0) ∧
    see 0x8F0E (withV [(0xF, 0x81)] at200) (fun t => t.readV VF) = some 1 := by decide

/-- A28: with the byte 0xB7 drawn. -/
theorem test_rnd : (rndWith 0xB7 3 0x0F at200).readV 3 = 0x07 := by decide

/-! ## Display -/

/-- X1. -/
theorem test_cls : see 0x00E0 (withLit [(5, 6), (63, 31)] (withV [(0xF, 3)] at200))
    (fun t => (litOf [(5, 6), (63, 31)] t, t.readV VF)) = some ([], 3) := by decide

/-- X6, X4: the right edge, and a collision. -/
theorem test_drw :
    see 0xD011 { withBytes 0x300 [0xFF] (withV [(0, 0x7E)] at200) with index := 0x300 }
      (fun t => (litOf [(61, 0), (62, 0), (63, 0), (0, 0), (5, 0), (0, 1)] t, t.readV VF)) = some ([(62, 0), (63, 0)], 0) ∧
    see 0xD011 { withBytes 0x300 [0x80] (withLit [(0, 0)] at200) with index := 0x300 }
      (fun t => (litOf [(0, 0), (7, 0)] t, t.readV VF)) = some ([], 1) := by decide

/-- X3, X9, X11, X13: bit order, `DrawYWrap = 32`, `VF` as a coordinate, and a fault. -/
theorem test_drw_corners :
    see 0xD011 { withBytes 0x300 [0x01] at200 with index := 0x300 } (litOf [(0, 0), (6, 0), (7, 0)]) = some [(7, 0)] ∧
    see 0xD011 { withBytes 0x300 [0xC0] (withV [(1, 40)] at200) with
      index := 0x300, config := { Config.default with drawYWrap := .mod32 } }
        (litOf [(0, 8), (1, 8), (2, 8), (0, 0)]) = some [(0, 8), (1, 8)] ∧
    see 0xDF01 { withBytes 0x300 [0x80] (withV [(0xF, 9)] at200) with index := 0x300 }
      (fun t => (litOf [(0, 0), (9, 0)] t, t.readV VF)) = some ([(9, 0)], 0) ∧
    faultOf 0xD013 { at200 with index := 0xFFE } = some (true, some (.memOutOfRange 0x1000 0x200), 0x200) := by
  decide

/-! ## Keys and timers -/

/-- K1, K4. -/
theorem test_skp : see 0xE29E (withKeys [0xA] (withV [(2, 0xA)] at200)) State.pc = some 0x204 ∧
    faultOf 0xE29E (withV [(2, 0x10)] at200) = some (true, some (.keyIndexOutOfRange 0x10 0x200), 0x200) := by decide

/-- K3, K5. -/
theorem test_sknp : see 0xE2A1 (withV [(2, 0xA)] at200) State.pc = some 0x204 ∧
    faultOf 0xE2A1 (withV [(2, 0xFF)] at200) = some (true, some (.keyIndexOutOfRange 0xFF 0x200), 0x200) := by decide

/-- K6. -/
theorem test_ldVxDt : see 0xF507 { at200 with dt := 0x3C } (fun t => (t.readV 5, t.dt)) = some (0x3C, 0x3C) := by decide

/-- K7. -/
theorem test_ldDt : see 0xF515 (withV [(5, 0x20)] at200) (fun t => (t.dt, t.st)) = some (0x20, 0) := by decide

/-- K8. -/
theorem test_ldSt : see 0xF518 (withV [(5, 0x20)] at200) (fun t => (t.dt, t.st)) = some (0, 0x20) := by decide

/-- K9, K10. -/
theorem test_ldVxK : see 0xF10A (withV [(1, 6)] at200) (fun t => (t.readV 1, t.pc)) = some (6, 0x200) ∧
    see 0xF10A (withKeys [9, 3] at200) (fun t => (t.readV 1, t.pc)) = some (3, 0x202) := by decide

/-- K12, K13, K14. -/
theorem test_tick : (tick { at200 with dt := 2 }).dt = 1 ∧ (tick { at200 with st := 1 }).dt = 0 ∧
    (tick { at200 with st := 1 }).st = 0 ∧ (tick { at200 with dt := 5, halted := true }).dt = 4 := by decide

/-! ## Index register and memory -/

/-- M1. -/
theorem test_ldI : see 0xA123 at200 State.index = some 0x123 := by decide

/-- M2, M3. -/
theorem test_addI : see 0xF11E { withV [(1, 1)] at200 with index := 0xFFF } (fun t => (t.index, t.readV VF)) = some (0x1000, 0) ∧
    see 0xF11E { withV [(1, 2)] at200 with index := 0xFFFF } State.index = some 1 := by decide

/-- M4, M6. -/
theorem test_ldF : see 0xF129 (withV [(1, 0xF)] at200) State.index = some 0x4B ∧
    see 0xF129 (withV [(1, 0xFF)] at200) State.index = some 0x4FB := by decide

/-- W16, M10. -/
theorem test_ldB : see 0xF433 { withV [(4, 234)] at200 with index := 0x300 }
      (fun t => (t.mem.readBytes 0x300 4, t.index)) = some ([2, 3, 4, 0], 0x300) ∧
    see 0xF133 { withV [(1, 9)] at200 with index := 0xFFE } (fun t => (t.fault, t.mem.readBytes 0xFFE 2)) =
      some (some (.memOutOfRange 0x1000 0x200), [0, 0]) := by decide

/-- M11, and M16: the stored word is the next one fetched. -/
theorem test_stRegs : see 0xF155 { withBytes 0x302 [0xAA] (withV [(0, 1), (1, 2), (2, 3)] at200) with index := 0x300 }
      (fun t => (t.mem.readBytes 0x300 3, t.index)) = some ([1, 2, 0xAA], 0x300) ∧
    see 0xF155 { withV [(0, 0x12), (1, 0x02)] at200 with index := 0x202 } (fun t => (fetchWord t, t.pc)) =
      some (0x1202, 0x202) := by decide

/-- The example of R185, and M14. -/
theorem test_ldRegs : see 0xF165 { withBytes 0x300 [2, 3, 9] (withV [(2, 7)] at200) with index := 0x300 }
      (fun t => ([t.readV 0, t.readV 1, t.readV 2], t.index)) = some ([2, 3, 7], 0x300) ∧
    faultOf 0xFF65 { at200 with index := 0xFF8 } = some (true, some (.memOutOfRange 0x1000 0x200), 0x200) := by decide

/-! ## Steps, faults and the host -/

/-- D15, D16, D17: the top of memory, and an odd `pc`. -/
theorem test_step_fetch : see 0x6000 { at200 with pc := 0xFFE } State.pc = some 0x1000 ∧
    (nextOf (step { at200 with pc := 0xFFF })).map State.fault = some (some (.fetchOutOfRange 0xFFF)) ∧
    see 0x6007 { at200 with pc := 0x201 } (fun t => (t.readV 0, t.pc)) = some (7, 0x203) := by decide

/-- D1, F1, F5. -/
theorem test_step_faults : faultOf 0x0000 at200 = some (true, some (.decodeError 0 0x200), 0x200) ∧
    see 0x6A0F { at200 with halted := true } (fun t => (t.readV 0xA, t.pc)) = some (0, 0x200) ∧
    see 0xD013 { withV [(0xF, 7)] at200 with index := 0xFFE } (fun t => t.readV VF) = some 7 := by decide

/-- F2, F3, F4. -/
theorem test_host_refusals : runCommands [.setKey 16 true] at200 = .next at200 ∧
    setKey 16 true at200 = .refused (.noSuchKey 16) ∧
    getPixel 64 0 at200 = .error (.noSuchPixel 64 0) ∧
    loadBytes 0xF00 (List.replicate 512 1) at200 = .refused (.loadOutOfRange 0xF00 512) :=
  ⟨rfl, rfl, rfl, by
    rw [loadBytes, if_pos (by rw [List.length_replicate]; decide), List.length_replicate]⟩

/-- R231 and R33: the boot sequence with the ROM of program P5. -/
theorem test_boot : (nextOf (boot Config.default [0x60, 0x01])).map
    (fun t => (t.mem.readBytes 0x23 5, t.mem.readBytes 0x50 1, t.mem.readBytes 0x200 3, t.pc)) =
      some ([0xF0, 0x10, 0x20, 0x40, 0x40], [0], [0x60, 0x01, 0], 0x200) := by decide

/-- R233: a step from reset, with nothing loaded, faults on the word 0x0000 at 0. -/
theorem test_step_from_reset : (nextOf (step State.reset)).map (fun t => (t.halted, t.fault)) =
    some (true, some (.decodeError 0 0)) := by decide

/-- The host's word is the one the next step runs, from reset. -/
theorem test_withFetchWord : (nextOf (step (State.reset.withFetchWord 16 0x6A0F))).map (fun t => (t.readV 0xA, t.pc)) =
    some (0x0F, 2) := by decide

/-! ## States and operands that meet the hypotheses of the obligations

One theorem per obligation that has hypotheses, with each clause at a boundary value of its range. -/

theorem inv_of_parts {s : State} (hm : s.mem.wf = true) (hsp : s.sp.toNat ≤ 15) (hst : s.stack = Vector.replicate 16 0)
    (hpc : s.pc.toNat ≤ 0x10FE) (hf : s.halted = s.fault.isSome) : s.Inv where
  memCanonical := hm
  spInRange := hsp
  stackZero := by simp [hst]
  linksInRange := by simp [hst]
  pcInRange := hpc
  faultAgrees := hf

theorem witness_DecodingAnEncodedInstructionGivesItBack :
    (Instr.drw 0xF 0xF 15).wellFormed = true ∧ (Instr.jp 0xFFF).wellFormed = true ∧ (Instr.ldRegs 0xF).wellFormed = true := by
  decide

theorem witness_StrictDecodingIsInvertedByEncoding :
    decodeWord true 0xDFFF = .ok (.drw 0xF 0xF 15) ∧ decodeWord true 0x00E0 = .ok .cls := by decide

/-- R80: the words of families 0x0, 0x5 and 0x9 with don't-care bits set, each at its row of the opcode map. -/
theorem witness_LaxDecodingIgnoresTheDontCareBits :
    (⟨0xFFFF, 0xF0FF, 0x00E0⟩ ∈ opcodeTable ∧ (0x0AE0 : Word) &&& 0xF0FF = 0x00E0) ∧
    (⟨0xF00F, 0xF000, 0x5000⟩ ∈ opcodeTable ∧ (0x5121 : Word) &&& 0xF000 = 0x5000) ∧
    ⟨0xF00F, 0xF000, 0x9000⟩ ∈ opcodeTable ∧ (0x912F : Word) &&& 0xF000 = 0x9000 := by decide

theorem witness_IllegalWordsAreThoseThatMatchNoRow :
    at200.halted = false ∧ at200.pc.toNat + 1 < memSize ∧
    (¬ ∃ r ∈ opcodeTable, fetchWord at200 &&& r.maskUnder at200.config.strictDecode = r.matchBits) ∧
    (let s := placeWord 0x8AB8 { at200 with pc := 0xFFE }
     s.halted = false ∧ s.pc.toNat + 1 < memSize ∧
      ¬ ∃ r ∈ opcodeTable, fetchWord s &&& r.maskUnder s.config.strictDecode = r.matchBits) := by decide

theorem witness_NoWordMatchesTwoRows :
    (opcodeTable[0]'(by decide)).matchesWord true 0x00E0 = true ∧
    (opcodeTable[33]'(by decide)).matchesWord false 0xFF65 = true := by decide

theorem witness_StepRunsTheDecodedInstruction :
    (let s := placeWord 0x6A0F at200
     s.halted = false ∧ s.pc.toNat + 1 < memSize ∧
      decode s.config.strictDecode [s.mem.read s.pc.toNat, s.mem.read (s.pc.toNat + 1)] = .ok (.ldImm 0xA 0x0F, [])) ∧
    (let s := placeWord 0x1200 { at200 with pc := 0xFFE }
     s.halted = false ∧ s.pc.toNat + 1 < memSize ∧
      decode s.config.strictDecode [s.mem.read s.pc.toNat, s.mem.read (s.pc.toNat + 1)] = .ok (.jp 0x200, [])) := by
  decide

theorem witness_FetchFaultsPastMemoryAndHaltedBlocksStay :
    (let s := { at200 with pc := 0xFFF }; s.halted = false ∧ memSize ≤ s.pc.toNat + 1) ∧
    (let s := { at200 with pc := 0xFFE }
     s.halted = false ∧ s.pc.toNat + 1 < memSize ∧ ∃ t, step s = .next t ∧ t.halted = true) ∧
    (let s := { at200 with pc := 0x201 }
     s.halted = false ∧ s.pc.toNat + 1 < memSize ∧ ∃ t, step s = .next t ∧ t.halted = true) ∧
    { at200 with halted := true }.halted = true :=
  ⟨by decide, ⟨rfl, by decide, _, rfl, rfl⟩, ⟨rfl, by decide, _, rfl, rfl⟩, rfl⟩

theorem witness_FaultingStepIsDiscarded :
    at200.halted = false ∧ ∃ t, step at200 = .next t ∧ t.halted = true := ⟨rfl, _, rfl, rfl⟩

theorem witness_OnlyCreationClearsTheFaultState :
    (let s := { at200 with halted := true, fault := some (.decodeError 0 0x200) }
     s.halted = true ∧ (∃ t, runCommand .step s = .next t) ∧ Command.step ≠ .create) ∧
    (∃ t, runCommand .tick at200 = .next t) ∧ Command.tick ≠ .create ∧ Command.tick ≠ .step :=
  ⟨⟨rfl, ⟨_, rfl⟩, by decide⟩, ⟨_, rfl⟩, by decide, by decide⟩

/-- One state for each of the five causes. -/
theorem witness_StepRaisesExactlyTheListedFaults :
    (let s := { at200 with pc := 0xFFF }; s.Inv ∧ s.halted = false ∧ RaisesFault s (.fetchOutOfRange 0xFFF)) ∧
    (at200.Inv ∧ at200.halted = false ∧ RaisesFault at200 (.decodeError 0 0x200)) ∧
    (let s := placeWord 0xD013 { at200 with index := 0xFFE }
     s.Inv ∧ s.halted = false ∧ RaisesFault s (.memOutOfRange 0x1000 0x200)) ∧
    (let s := placeWord 0x2300 { at200 with sp := 15 }
     s.Inv ∧ s.halted = false ∧ RaisesFault s (.stackOverflow 16 0x200)) ∧
    (let s := placeWord 0xE29E (withV [(2, 0x10)] at200)
     s.Inv ∧ s.halted = false ∧ RaisesFault s (.keyIndexOutOfRange 0x10 0x200)) := by
  refine ⟨⟨inv_of_parts rfl (by decide) rfl (by decide) rfl, rfl, .fetch (by decide)⟩,
    ⟨inv_of_parts rfl (by decide) rfl (by decide) rfl, rfl, .decode (by decide) (by decide)⟩,
    ⟨inv_of_parts (by decide) (by decide) rfl (by decide) rfl, rfl,
      .memory (.drw 0 1 3) 0x1000 ⟨by decide, by decide⟩ ⟨by decide, by decide, by decide, fun b _ hb => hb⟩⟩,
    ⟨inv_of_parts (by decide) (by decide) rfl (by decide) rfl, rfl,
      .stack 0x300 ⟨by decide, by decide⟩ rfl⟩,
    ⟨inv_of_parts (by decide) (by decide) rfl (by decide) rfl, rfl,
      .key 2 (.inl ⟨by decide, by decide⟩) (by decide)⟩⟩

theorem witness_StepAnswersNextUnlessReturnReadsPastTheStack : at200.Inv :=
  inv_of_parts rfl (by decide) rfl (by decide) rfl

/-- A step that runs an instruction, and one that faults. -/
theorem witness_StepKeepsTheInvariant :
    (let s := placeWord 0x6A0F at200; s.Inv ∧ ∃ t, step s = .next t ∧ t.halted = false) ∧
    (at200.Inv ∧ ∃ t, step at200 = .next t ∧ t.halted = true) :=
  ⟨⟨inv_of_parts (by decide) (by decide) rfl (by decide) rfl, _, rfl, rfl⟩,
    inv_of_parts rfl (by decide) rfl (by decide) rfl, _, rfl, rfl⟩

theorem witness_SessionsKeepTheInvariantAndTheParameters :
    Session Config.default (start (loadFont (State.create Config.default))) :=
  .command .start (.command .loadFont .created rfl) rfl

theorem witness_EachPartIsWrittenOnlyByItsInstructions :
    (∃ t, exec (.jp 0xFFF) at200 = .next t) ∧ (∀ x, Instr.jp 0xFFF ≠ .ldB x) ∧ (∀ x, Instr.jp 0xFFF ≠ .stRegs x) ∧
    Instr.jp 0xFFF ≠ .cls ∧ (∀ x y n, Instr.jp 0xFFF ≠ .drw x y n) ∧ (∀ n, Instr.jp 0xFFF ≠ .ldI n) ∧
    (∀ x, Instr.jp 0xFFF ≠ .addI x) ∧ (∀ x, Instr.jp 0xFFF ≠ .ldF x) ∧ (∀ n, Instr.jp 0xFFF ≠ .call n) ∧
    Instr.jp 0xFFF ≠ .ret ∧ (∀ x, Instr.jp 0xFFF ≠ .ldDt x) ∧ (∀ x, Instr.jp 0xFFF ≠ .ldSt x) ∧
    (∀ x nn, Instr.jp 0xFFF ≠ .rnd x nn) := by
  refine ⟨⟨_, rfl⟩, ?_⟩
  simp

theorem witness_OnlyDestinationsAndControlTransfersWriteRegistersAndPc :
    at200.halted = false ∧ ∃ t, exec (.jp 0xFFF) at200 = .next t ∧ t.halted = false ∧ t.pc ≠ at200.pc :=
  ⟨rfl, _, rfl, rfl, by decide⟩

theorem witness_TimersKeysDisplayStackAndDrawsAreReadOnlyByTheirInstructions :
    (∀ x, Instr.ldF 0 ≠ .ldVxDt x) ∧ (∀ x, Instr.ldF 0 ≠ .skp x) ∧ (∀ x, Instr.ldF 0 ≠ .sknp x) ∧
    (∀ x, Instr.ldF 0 ≠ .ldVxK x) ∧ (∀ x y n, Instr.ldF 0 ≠ .drw x y n) ∧ Instr.ldF 0 ≠ .ret ∧
    (∀ n, Instr.ldF 0 ≠ .call n) ∧ ∀ x nn, Instr.ldF 0 ≠ .rnd x nn := by simp

theorem witness_MemoryIndexAndStackPointerAreReadOnlyByTheirInstructions :
    (∀ x y n, Instr.ldF 0 ≠ .drw x y n) ∧ (∀ x, Instr.ldF 0 ≠ .ldRegs x) ∧ (∀ x, Instr.ldF 0 ≠ .ldB x) ∧
    (∀ x, Instr.ldF 0 ≠ .stRegs x) ∧ (∀ x, Instr.ldF 0 ≠ .addI x) ∧ Instr.ldF 0 ≠ .ret ∧ ∀ n, Instr.ldF 0 ≠ .call n := by
  simp

theorem witness_PcAndTheFaultStateDecideNoOtherPart : ∀ n, Instr.ret ≠ .call n := by simp

/-- `VF` in an addition of two other registers, the register after the last one stored, and `Y` of a shift by default. -/
theorem witness_RegistersAreReadOnlyAsOperands :
    (0xF : RegNum) ∉ sourceRegs at200.config (.addReg 1 2) ∧ (0xF : RegNum) ∉ sourceRegs at200.config (.stRegs 0xE) ∧
    (2 : RegNum) ∉ sourceRegs at200.config (.shr 1 2) := by decide

theorem witness_JumpsSetOnlyPc :
    (∃ t, at200.halted = false ∧ exec (.jp 0xFFF) at200 = .next t ∧ memSize ≤ t.pc.toNat + 1) ∧
    (∃ t, at200.halted = false ∧ exec (.jpV0 0xFFF) at200 = .next t ∧ memSize ≤ t.pc.toNat + 1) ∧
    (0xFFF : Word).toNat < 0x1000 ∧ at200.config.jumpOffsetMask = .none ∧
    { at200 with config := { Config.default with jumpOffsetMask := .mask12 } }.config.jumpOffsetMask = .mask12 :=
  ⟨⟨_, rfl, rfl, by decide⟩, ⟨_, rfl, rfl, by decide⟩, by decide, rfl, rfl⟩

theorem witness_CallPushesTheLinkOrOverflows :
    (0xFFF : Word).toNat < 0x1000 ∧ at200.sp.toNat < 15 ∧ { at200 with sp := 14 }.sp.toNat < 15 ∧
    { at200 with sp := 15 }.sp.toNat = 15 ∧ at200.config.callLink = .postFetch ∧
    { at200 with config := { Config.default with callLink := .preFetch } }.config.callLink = .preFetch := by decide

theorem witness_ReturnPopsTheStackAndClampsAtZero : at200.sp.toNat ≤ 15 ∧ { at200 with sp := 15 }.sp.toNat ≤ 15 := by decide

theorem witness_ReturnUndoesCall :
    (let s := { at200 with sp := 14 }; s.sp.toNat < 15 ∧ s.config.callLink = .postFetch) := by decide

theorem witness_FifteenCallsNestAndTheNextOverflows :
    at200.sp.toNat + (List.replicate 15 (0x200 : Word)).length = 15 ∧
    { at200 with sp := 15 }.sp.toNat + ([] : List Word).length = 15 := by decide

theorem witness_ShiftsWriteTheResultAndTheBitShiftedOut :
    (let s := withV [(1, 0x81), (2, 0xFE)] at200
     (0x81 : Byte) = if s.config.shiftSource = .vx then s.readV 1 else s.readV 2) ∧
    (let s := { withV [(1, 0x81), (2, 0xFE)] at200 with config := { Config.default with shiftSource := .vy } }
     (0xFE : Byte) = if s.config.shiftSource = .vx then s.readV 1 else s.readV 2) := by decide

/-- `N` at its largest, a sprite that ends at the top of memory, `N = 0` with `I` past memory, and a covered cell that is lit and
one that is not covered. -/
theorem witness_DrawXorsTheSpriteAndReportsCollision :
    15 < 16 ∧ { at200 with index := 4081 }.index.toNat + 15 ≤ memSize ∧
    ((0 : Nat) = 0 ∨ { at200 with index := 0xFFFF }.index.toNat + 0 ≤ memSize) ∧
    (let s := { withBytes 0x300 [0x80] (withLit [(63, 31)] (withV [(0, 63), (1, 31)] at200)) with index := 0x300 }
     s.index.toNat + 1 ≤ memSize ∧ DrawCovers s 0 1 1 63 31 ∧ s.disp.lit 63 31 = true ∧ ¬ DrawCovers s 0 1 1 62 31) := by
  refine ⟨by decide, by decide, by decide, by decide, ⟨by decide, by decide, by decide, 0x80, ?_⟩,
    by decide, fun h => absurd h.1 (by decide)⟩
  decide

/-- With `VF` no coordinate, both draws cover the same cells. -/
theorem witness_DrawingTwiceRestoresTheDisplay :
    (let s := { withBytes 0x300 [0x80] at200 with index := 0x300 }
     (1 = 0 ∨ s.index.toNat + 1 ≤ memSize) ∧
      ∃ t, exec (.drw 0 1 1) s = .next t ∧ ∀ px py, DrawCovers t 0 1 1 px py ↔ DrawCovers s 0 1 1 px py) :=
  ⟨.inr (by decide), _, rfl, fun _ _ => Iff.rfl⟩

theorem witness_KeyTestsSkipOrFault :
    ((withV [(2, 15)] at200).readV 2).toNat < 16 ∧ 15 < ((withV [(2, 16)] at200).readV 2).toNat ∧
    15 < ((withV [(2, 255)] at200).readV 2).toNat := by decide

theorem witness_KeyWaitTakesTheLowestKeyOrRewinds :
    ((withKeys [0, 15] at200).key[0] = true ∧ ∀ j (hj : j < 0), (withKeys [0, 15] at200).key[j] = false) ∧
    ((withKeys [15] at200).key[15] = true ∧ ∀ j (hj : j < 15), (withKeys [15] at200).key[j] = false) ∧
    ∀ k (hk : k < 16), at200.key[k] = false := by decide

theorem witness_KeyWaitIsIdempotentUntilAKeyIsDown :
    (let s := placeWord 0xF30A at200
     s.halted = false ∧ Fetches s (.ldVxK 3) ∧ ∀ k (hk : k < 16), s.key[k] = false) ∧
    (let s := placeWord 0xF30A (withKeys [15] at200)
     s.halted = false ∧ Fetches s (.ldVxK 3) ∧ s.key[15] = true ∧ ∀ j (hj : j < 15), s.key[j] = false) :=
  ⟨⟨rfl, ⟨by decide, by decide⟩, by decide⟩,
    rfl, ⟨by decide, by decide⟩, by decide, by decide⟩

theorem witness_IndexInstructionsWriteOnlyI : (0xFFF : Word).toNat < 0x1000 := by decide

theorem witness_BcdStoresTheThreeDigitsAtI :
    (let s := { at200 with index := 4093 }; s.mem.wf = true ∧ s.index.toNat + 3 ≤ memSize) := by decide

theorem witness_RegisterDumpStoresV0ToVxAtI :
    (let s := { at200 with index := 4080 }; s.mem.wf = true ∧ s.index.toNat + (0xF : RegNum).toNat + 1 ≤ memSize) ∧
    (let s := { at200 with index := 4095 }; s.mem.wf = true ∧ s.index.toNat + (0 : RegNum).toNat + 1 ≤ memSize) := by decide

theorem witness_RegisterLoadReadsV0ToVxAtI :
    { at200 with index := 4080 }.index.toNat + (0xF : RegNum).toNat + 1 ≤ memSize ∧
    { at200 with index := 4095 }.index.toNat + (0 : RegNum).toNat + 1 ≤ memSize := by decide

/-- Each of the four instructions that access memory, with one address or all addresses past it. -/
theorem witness_DataAccessesPastMemoryRaiseTheLowestAddress :
    LowestBadAddress { at200 with index := 0xFFE }.index.toNat (dataBytes (.drw 0 1 3)) 0x1000 ∧
    LowestBadAddress { at200 with index := 0xFFE }.index.toNat (dataBytes (.ldB 1)) 0x1000 ∧
    LowestBadAddress { at200 with index := 0xFF1 }.index.toNat (dataBytes (.stRegs 0xF)) 0x1000 ∧
    LowestBadAddress { at200 with index := 0xFFFF }.index.toNat (dataBytes (.ldRegs 0)) 0xFFFF :=
  ⟨⟨by decide, by decide, by decide, fun _ _ h => h⟩, ⟨by decide, by decide, by decide, fun _ _ h => h⟩,
    ⟨by decide, by decide, by decide, fun _ _ h => h⟩,
    ⟨by decide, by decide, by decide, fun b h1 h2 => absurd (lt_of_le_of_lt h1 h2) (lt_irrefl _)⟩⟩

theorem witness_RegisterLoadUndoesRegisterDump :
    (let s := { withV [(0, 1), (0xF, 2)] at200 with index := 4080 }
     s.mem.wf = true ∧ s.index.toNat + (0xF : RegNum).toNat + 1 ≤ memSize ∧
      ∃ t, exec (.stRegs 0xF) s = .next t ∧ ∃ u : State, u.mem = t.mem ∧ u.index = s.index ∧ u.readV 0 ≠ s.readV 0) :=
  ⟨rfl, by decide, _, rfl, { at200 with index := 4080, mem := _ }, rfl, rfl, by decide⟩

theorem witness_StoredInstructionIsTheNextOneFetched :
    (let s := { withV [(0, 0x12), (1, 0x02)] at200 with index := 0x200 }
     s.mem.wf = true ∧ 1 ≤ (1 : RegNum).toNat ∧ s.index = s.pc ∧ s.index.toNat + (1 : RegNum).toNat + 1 ≤ memSize ∧
      s.halted = false ∧ decodeWord s.config.strictDecode 0x1202 = .ok (.jp 0x202)) := by decide

theorem witness_BootLoadsFontAndRom :
    ([] : List Byte).length ≤ 3584 ∧ (List.replicate 3584 (0 : Byte)).length ≤ 3584 :=
  ⟨by decide, by rw [List.length_replicate]⟩

theorem witness_HostOperationsDoTheirEffectOrAreRefused :
    at200.mem.wf = true ∧ 4094 + [1, 2].length ≤ memSize ∧ memSize < 4095 + [1, 2].length ∧ 15 < 16 ∧ 16 ≤ 16 ∧
    (63 < 64 ∧ 31 < 32) ∧ (64 ≤ 64 ∨ 32 ≤ 0) ∧ (64 ≤ 0 ∨ 32 ≤ 32) := by decide

theorem not_atEnd_of_fetchWord {r : Result} {u : State} (hu : r = .next u)
    (h : (nextOf r).all (fun u => fetchWord u ≠ wordNNN 0x1 u.pc) = true) : ¬ u.atEnd := by
  rintro ⟨-, -, he⟩
  rw [hu] at h
  simp [nextOf, he] at h

/-- FX0A at 0x200 and a jump to itself at 0x202, as in program P4. -/
def waiting : State := withBytes 0x200 [0xF3, 0x0A, 0x12, 0x02] at200

/-- A step that waits, a key the host sets, a step that takes it, and the run ends; and a run that comes to a fault. -/
theorem witness_RunsEndInAtMostOneStateAndNeverAfterAFault :
    (∃ t, RunEnds [.step, .setKey 7 true, .step, .tick] waiting t ∧ t.pc = 0x202 ∧ t.readV 3 = 7) ∧
    (∃ f, runCommands (([.tick, .step] : List Command).take 2) at200 = .next f ∧ f.halted = true) ∧
    (∀ m u, m < 2 → runCommands (([.tick, .step] : List Command).take m) at200 = .next u → ¬ u.atEnd) ∧
    ∀ c ∈ ([.tick, .step] : List Command), c.keepsProgram = true := by
  refine ⟨⟨_, ⟨by decide, 3, rfl, ⟨by decide, by decide, by decide⟩, fun m u hm hu => not_atEnd_of_fetchWord hu ?_⟩,
    by decide, by decide⟩, ⟨_, rfl, by decide⟩, fun m u hm hu => not_atEnd_of_fetchWord hu ?_, by decide⟩
  · clear hu
    revert m
    decide
  · clear hu
    revert m
    decide

theorem witness_EndOfRunIsAFixedPoint :
    (placeWord 0x1200 at200).atEnd ∧ (placeWord 0x1FFE { at200 with pc := 0xFFE }).atEnd ∧
    ∀ c ∈ ([.step, .setKey 15 true, .tick, .getPixel 63 31, .readState] : List Command), c.keepsProgram = true :=
  ⟨⟨rfl, by decide, by decide⟩, ⟨rfl, by decide, by decide⟩, by decide⟩

end Sys2Proof.Tests
end

/-! What the state right after creation reads as, part by part, and the defaults of the parameters. -/

namespace Sys2Proof.Machine

/-! ### `getPixel` -/

/-- Inside the frame `get_pixel` answers the cell (R220). -/
theorem getPixel_of_lt (s : State) {x y : Nat} (hx : x < 64) (hy : y < 32) : getPixel x y s = .ok s.disp[y][x] := by
  rw [getPixel, Display.cell_of_lt s.disp hx hy]

/-- Outside the frame `get_pixel` is refused (R220). -/
theorem getPixel_outside (s : State) {x y : Nat} (h : 64 ≤ x ∨ 32 ≤ y) :
    getPixel x y s = .error (.noSuchPixel x y) := by
  rw [getPixel, (Display.cell_eq_none_iff s.disp x y).2 h]

/-! ### The state after creation (R40, R230) -/

/-- Memory with no byte listed reads as 0 everywhere (log entry 4). -/
@[simp] theorem Memory.read_nil (a : Nat) : Memory.read [] a = 0 := rfl

@[simp] theorem Display.getElem_dark {x y : Nat} (hx : x < 64) (hy : y < 32) : Display.dark[y][x] = false := by
  rw [← Display.lit_of_lt Display.dark hx hy, Display.lit_dark]

@[simp] theorem State.read_mem_create (c : Config) (a : Nat) : (State.create c).mem.read a = 0 := Memory.read_nil a

@[simp] theorem State.readV_create (c : Config) (r : RegNum) : (State.create c).readV r = 0 :=
  Vector.getElem_replicate r.isLt

@[simp] theorem State.getElem_stack_create (c : Config) {k : Nat} (hk : k < 16) : (State.create c).stack[k] = 0 :=
  Vector.getElem_replicate hk

@[simp] theorem State.getElem_key_create (c : Config) {k : Nat} (hk : k < 16) : (State.create c).key[k] = false :=
  Vector.getElem_replicate hk

theorem getPixel_create (c : Config) {x y : Nat} (hx : x < 64) (hy : y < 32) :
    getPixel x y (State.create c) = .ok false := by
  rw [getPixel_of_lt _ hx hy]
  exact congrArg _ (Display.getElem_dark hx hy)

/-! ### The parameters after reset (R9, R33) -/

/-- The default font table, given in four parts, lists the sixteen glyphs of R33 in order. -/
theorem toList_defaultFont : Config.defaultFont.toList = fontGlyphs := by decide

/-- Settles O49: the defaults field by field, then each part of the created state by the lemma of what it reads as. -/
theorem resetLeavesEveryPartZero : Obligations.ResetLeavesEveryPartZero := by
  unfold Obligations.ResetLeavesEveryPartZero
  refine ⟨⟨rfl, rfl, rfl, rfl, rfl, rfl, toList_defaultFont⟩, fun c => ?_⟩
  exact ⟨State.read_mem_create c, State.readV_create c, rfl, rfl, rfl,
    fun k hk => ⟨State.getElem_stack_create c hk, State.getElem_key_create c hk⟩, rfl, rfl,
    fun x y hx hy => getPixel_create c hx hy, rfl, rfl, rfl⟩

end Sys2Proof.Machine

/-! What an instruction does, apart from the state it does it to: an `Effect` lists the values an instruction writes, worked out
from its operands, so that who reads a part of the state (`effect`) and who writes it (`Writes.apply`) are two questions.
`exec_eq_apply` ties the two to the executor. -/

namespace Sys2Proof.Machine

/-- Write bytes to registers of the register file, in order. -/
def writeRegs (v : Vector Byte 16) : List (RegNum × Byte) → Vector Byte 16
  | [] => v
  | (x, b) :: rest => writeRegs (v.set x.toNat b x.isLt) rest

/-- What an instruction that goes on writes to each part of the state; the default of a field leaves the part alone. The
new `pc`, and the link CALL pushes, are given as functions of `pc` (R100, R103). -/
structure Writes where
  /-- The address and the bytes stored in memory. -/
  store : Option (Nat × List Byte) := none
  regs : List (RegNum × Byte) := []
  index : Option Word := none
  pc : Word → Word := id
  sp : Option Byte := none
  /-- The stack entry that is written, and its value. -/
  push : Option (Nat × (Word → Word)) := none
  dt : Option Byte := none
  st : Option Byte := none
  disp : Option Display := none
  /-- How many random bytes are drawn (log entry 2). -/
  drawn : Nat := 0

/-- What an instruction does: it writes, it raises a fault (R201), or the model stops (log entry 3). -/
inductive Effect where
  | writes (w : Writes)
  | raises (cause : Word → FaultCause)
  | stops (r : Fault)

/-- The state with the writes done. -/
def Writes.apply (w : Writes) (s : State) : State where
  mem := match w.store with | some (a, bs) => s.mem.writeBytes a bs | none => s.mem
  v := writeRegs s.v w.regs
  index := w.index.getD s.index
  pc := w.pc s.pc
  sp := w.sp.getD s.sp
  stack := match w.push with | some (k, link) => s.stack.setIfInBounds k (link s.pc) | none => s.stack
  dt := w.dt.getD s.dt
  st := w.st.getD s.st
  disp := w.disp.getD s.disp
  key := s.key
  halted := s.halted
  fault := s.fault
  draws := s.draws + w.drawn
  config := s.config

/-- The outcome of the effect in a state. -/
def Effect.apply : Effect → State → Result
  | .writes w, s => .next (w.apply s)
  | .raises cause, s => raise cause s
  | .stops r, _ => .fault r

/-! ### The effect of each instruction -/

/-- A write to one register. -/
def Effect.reg (x : RegNum) (b : Byte) : Effect := .writes { regs := [(x, b)] }

/-- The result to `V[x]`, then the flag to `VF` (R22). -/
def Effect.regAndFlag (x : RegNum) (result flag : Byte) : Effect := .writes { regs := [(x, result), (VF, flag)] }

/-- A skip on the condition (R109). -/
def Effect.skip (c : Bool) : Effect := .writes { pc := fun p => if c then p + 2 else p }

/-- A key test: a skip, or the fault of a key that does not exist (R160, R161). -/
def Effect.keyTest (x : RegNum) (down : Bool) (s : State) : Effect :=
  match s.keyAt (s.readV x).toNat with
  | some k => .skip (k = down)
  | none => .raises (.keyIndexOutOfRange (s.readV x))

/-- An access to the `n` bytes at `I`: it does `e`, or raises the lowest bad address (R205). -/
def Effect.checked (s : State) (n : Nat) (e : Effect) : Effect :=
  match badAddress s.index.toNat n with
  | some addr => .raises (.memOutOfRange addr)
  | none => e

/-- A store at `I` (R183, R184). -/
def Effect.storeAt (s : State) (bytes : List Byte) : Effect :=
  .checked s bytes.length (.writes { store := some (s.index.toNat, bytes) })

/-- The sprite DRW draws, on the display it finds (R152). -/
def State.blit (s : State) (x y : RegNum) (n : Nat) : Blit :=
  Blit.rows ⟨s.disp, false⟩ (s.originX x) (s.originY y) (s.mem.readBytes s.index.toNat n)

/-- The registers FX65 writes, with the bytes it reads for them (R185). -/
def State.loadedRegs (s : State) (x : RegNum) : List (RegNum × Byte) :=
  (List.range (x.toNat + 1)).map fun k => (BitVec.ofNat 4 k, s.mem.read (s.index.toNat + k))

/-- What the instruction does, worked out from the operands it reads in `s`. -/
def effect (i : Instr) (s : State) : Effect :=
  match i with
  | .cls => .writes { disp := some Display.dark }
  | .ret =>
    match stackEntry s s.sp.toNat with
    | some target => .writes { pc := fun _ => target, sp := some (if s.sp = 0 then 0 else s.sp - 1) }
    | none => .stops (.stackReadOutOfRange s.sp)
  | .jp nnn => .writes { pc := fun _ => nnn }
  | .call nnn =>
    if stackDepth ≤ s.sp.toNat + 1 then .raises (.stackOverflow (s.sp.toNat + 1))
    else .writes { pc := fun _ => nnn, sp := some (s.sp + 1),
                   push := some (s.sp.toNat + 1, fun p => { s with pc := p }.linkAddress) }
  | .seImm x nn => .skip (s.readV x = nn)
  | .sneImm x nn => .skip (s.readV x ≠ nn)
  | .seReg x y => .skip (s.readV x = s.readV y)
  | .ldImm x nn => .reg x nn
  | .addImm x nn => .reg x (s.readV x + nn)
  | .ldReg x y => .reg x (s.readV y)
  | .orReg x y => .reg x (s.readV x ||| s.readV y)
  | .andReg x y => .reg x (s.readV x &&& s.readV y)
  | .xorReg x y => .reg x (s.readV x ^^^ s.readV y)
  | .addReg x y => .regAndFlag x (s.readV x + s.readV y) (carryFlag (s.readV x) (s.readV y))
  | .sub x y => .regAndFlag x (s.readV x - s.readV y) (noBorrowFlag s.config (s.readV x) (s.readV y))
  | .shr x y => .regAndFlag x (s.shiftOperand x y >>> 1) (shiftRightFlag (s.shiftOperand x y))
  | .subn x y => .regAndFlag x (s.readV y - s.readV x) (noBorrowFlag s.config (s.readV y) (s.readV x))
  | .shl x y => .regAndFlag x (s.shiftOperand x y <<< 1) (shiftLeftFlag (s.shiftOperand x y))
  | .sneReg x y => .skip (s.readV x ≠ s.readV y)
  | .ldI nnn => .writes { index := some nnn }
  | .jpV0 nnn => .writes { pc := fun _ => s.offsetTarget nnn }
  | .rnd x nn => .writes { regs := [(x, Config.rand s.draws &&& nn)], drawn := 1 }
  | .drw x y n =>
    .checked s n (.writes { disp := some (s.blit x y n).disp, regs := [(VF, flagByte (s.blit x y n).hit)] })
  | .skp x => .keyTest x true s
  | .sknp x => .keyTest x false s
  | .ldVxDt x => .reg x s.dt
  | .ldVxK x =>
    match s.firstKeyDown with
    | some k => .reg x (BitVec.ofNat 8 k)
    | none => .writes { pc := fun p => p - 2 }
  | .ldDt x => .writes { dt := some (s.readV x) }
  | .ldSt x => .writes { st := some (s.readV x) }
  | .addI x => .writes { index := some (s.index + (s.readV x).setWidth 16) }
  | .ldF x => .writes { index := some ((s.readV x).setWidth 16 * 5) }
  | .ldB x => .storeAt s (bcdDigits (s.readV x))
  | .stRegs x => .storeAt s (s.firstRegs (x.toNat + 1))
  | .ldRegs x => .checked s (x.toNat + 1) (.writes { regs := s.loadedRegs x })

/-! ### The effect is what the executor does -/

theorem Effect.skip_apply (c : Bool) (s : State) : (Effect.skip c).apply s = .next (skipIf c s) := by
  cases c <;> rfl

theorem Effect.keyTest_apply (x : RegNum) (down : Bool) (s : State) :
    (Effect.keyTest x down s).apply s = skipOnKey x down s := by
  unfold Effect.keyTest skipOnKey
  cases s.keyAt (s.readV x).toNat with
  | some k => exact Effect.skip_apply _ s
  | none => rfl

theorem Effect.storeAt_apply (bytes : List Byte) (s : State) :
    (Effect.storeAt s bytes).apply s = storeAtIndex bytes s := by
  unfold Effect.storeAt Effect.checked storeAtIndex
  cases badAddress s.index.toNat bytes.length <;> rfl

theorem setStackEntry_eq (s : State) (k : Nat) (w : Word) :
    setStackEntry s k w = { s with stack := s.stack.setIfInBounds k w } := by
  unfold setStackEntry
  split
  · congr 1
    ext j hj
    rw [Vector.getElem_set, Vector.getElem_setIfInBounds]
  · rename_i h
    rw [Vector.setIfInBounds_eq_of_size_le (by omega)]

/-- Loading bytes into the registers from `k` upwards is writing them one by one. -/
theorem State.loadRegs_v (s : State) (k : Nat) (f : Nat → Byte) (n : Nat) :
    (s.loadRegs k ((List.range' k n).map f)).v =
      writeRegs s.v ((List.range' k n).map fun j => (BitVec.ofNat 4 j, f j)) := by
  induction n generalizing s k with
  | zero => rfl
  | succ n ih => simpa [List.range'_succ, State.loadRegs, writeRegs] using ih (s.writeV (BitVec.ofNat 4 k) (f k)) (k + 1)

theorem State.loadRegs_readBytes (s : State) (x : RegNum) :
    s.loadRegs 0 (s.mem.readBytes s.index.toNat (x.toNat + 1)) = { s with v := writeRegs s.v (s.loadedRegs x) } := by
  rw [State.loadRegs_eq, Memory.readBytes, List.range_eq_range', State.loadRegs_v, State.loadedRegs, List.range_eq_range']

/-- The executor does what `effect` says. -/
theorem exec_eq_apply (i : Instr) (s : State) : exec i s = (effect i s).apply s := by
  cases i
  case ret =>
    simp only [exec, execRet, effect]
    cases stackEntry s s.sp.toNat <;> rfl
  case call nnn =>
    simp only [exec, execCall, effect, setStackEntry_eq]
    split <;> rfl
  case seImm | sneImm | seReg | sneReg => exact (Effect.skip_apply _ s).symm
  case skp | sknp => exact (Effect.keyTest_apply _ _ s).symm
  case ldB | stRegs => exact (Effect.storeAt_apply _ s).symm
  case drw x y n =>
    simp only [exec, execDrw, effect, Effect.checked]
    cases badAddress s.index.toNat n <;> rfl
  case ldVxK x =>
    simp only [exec, execLdVxK, effect]
    cases s.firstKeyDown <;> rfl
  case ldRegs x =>
    simp only [exec, execLdRegs, effect, Effect.checked, State.loadRegs_readBytes]
    cases badAddress s.index.toNat (x.toNat + 1) <;> rfl
  all_goals rfl

end Sys2Proof.Machine

/-! Who writes each part of the state (R20, R22): what the writes of an instruction leave alone. -/

namespace Sys2Proof.Machine

/-! ### When an effect writes -/

/-- A checked access writes only if all its addresses exist. -/
theorem Effect.checked_eq_writes {s : State} {n : Nat} {e : Effect} {w : Writes} (h : Effect.checked s n e = .writes w) :
    (n = 0 ∨ s.index.toNat + n ≤ memSize) ∧ e = .writes w := by
  unfold Effect.checked at h
  cases hb : badAddress s.index.toNat n with
  | none => rw [hb] at h; exact ⟨(badAddress_eq_none_iff _ _).1 hb, h⟩
  | some addr => rw [hb] at h; cases h

/-- A key test that does not fault is a skip. -/
theorem Effect.keyTest_eq_writes {x : RegNum} {down : Bool} {s : State} {w : Writes}
    (h : Effect.keyTest x down s = .writes w) : ∃ c : Bool, Effect.skip c = .writes w := by
  unfold Effect.keyTest at h
  split at h
  · exact ⟨_, h⟩
  · cases h

/-- A checked access faults on the bounds check, or as the access itself does. -/
theorem Effect.checked_eq_raises {s : State} {n : Nat} {e : Effect} {c : Word → FaultCause}
    (h : Effect.checked s n e = .raises c) : (∃ addr, c = .memOutOfRange addr) ∨ e = .raises c := by
  unfold Effect.checked at h
  split at h
  · cases h
    exact .inl ⟨_, rfl⟩
  · exact .inr h

theorem Effect.keyTest_eq_raises {x : RegNum} {down : Bool} {s : State} {c : Word → FaultCause}
    (h : Effect.keyTest x down s = .raises c) : c = .keyIndexOutOfRange (s.readV x) := by
  unfold Effect.keyTest at h
  split at h <;> cases h
  rfl

/-! ### What an instruction may write -/

/-- The writes touch no part of the state but those the spec lists for the instruction (R20, R22, R100). -/
structure Writes.Allowed (i : Instr) (w : Writes) : Prop where
  store : (∀ x, i ≠ .ldB x) → (∀ x, i ≠ .stRegs x) → w.store = none
  disp : i ≠ .cls → (∀ x y n, i ≠ .drw x y n) → w.disp = none
  index : (∀ nnn, i ≠ .ldI nnn) → (∀ x, i ≠ .addI x) → (∀ x, i ≠ .ldF x) → w.index = none
  sp : (∀ nnn, i ≠ .call nnn) → i ≠ .ret → w.sp = none
  push : (∀ nnn, i ≠ .call nnn) → w.push = none
  dt : (∀ x, i ≠ .ldDt x) → w.dt = none
  st : (∀ x, i ≠ .ldSt x) → w.st = none
  drawn : (∀ x nn, i ≠ .rnd x nn) → w.drawn = 0
  regs : ∀ p ∈ w.regs, p.1 ∈ destRegs i
  pc : movesPc i = false → w.pc = id

theorem Writes.allowed_skip {i : Instr} (hi : movesPc i = true) {c : Bool} {w : Writes} (h : Effect.skip c = .writes w) :
    w.Allowed i := by
  cases h
  constructor <;> simp [hi]

theorem fst_mem_destRegs_of_mem_loadedRegs {s : State} {x : RegNum} :
    ∀ p ∈ s.loadedRegs x, p.1 ∈ destRegs (.ldRegs x) := by
  intro p hp
  obtain ⟨k, hk, rfl⟩ := List.mem_map.1 hp
  exact List.mem_map.2 ⟨k, hk, rfl⟩

/-- An instruction's writes are those the spec lists for it. -/
theorem effect_allowed {i : Instr} {s : State} {w : Writes} (h : effect i s = .writes w) : w.Allowed i := by
  cases i
  case seImm | sneImm | seReg | sneReg => exact Writes.allowed_skip rfl h
  case skp | sknp =>
    obtain ⟨c, hc⟩ := Effect.keyTest_eq_writes h
    exact Writes.allowed_skip rfl hc
  case ret =>
    simp only [effect] at h
    split at h <;> cases h
    constructor <;> simp [movesPc]
  case call nnn =>
    simp only [effect] at h
    split at h <;> cases h
    constructor <;> simp [movesPc]
  case ldVxK x =>
    simp only [effect] at h
    split at h <;> cases h <;> constructor <;> simp [movesPc, destRegs]
  case ldB | stRegs | drw =>
    obtain ⟨-, hw⟩ := Effect.checked_eq_writes h
    cases hw
    constructor <;> simp [destRegs]
  case ldRegs x =>
    obtain ⟨-, hw⟩ := Effect.checked_eq_writes h
    cases hw
    refine ⟨?_, ?_, ?_, ?_, ?_, ?_, ?_, ?_, fst_mem_destRegs_of_mem_loadedRegs, ?_⟩ <;> simp
  all_goals
    cases h
    constructor <;> simp [destRegs, movesPc]

theorem FaultCause.address_withAddress (a : Word) (c : FaultCause) : (c.withAddress a).address = a := by
  cases c <;> rfl

/-- Only the instructions that R202 lists raise a fault of their own, and its cause depends on the address it is given in
nothing but that address. -/
theorem effect_raises {i : Instr} {s : State} {c : Word → FaultCause} (h : effect i s = .raises c) :
    canFault i = true ∧ ∀ a b, (c b).withAddress a = c a := by
  cases i
  case call nnn =>
    simp only [effect] at h
    split at h <;> cases h
    exact ⟨rfl, fun _ _ => rfl⟩
  case skp | sknp =>
    rw [Effect.keyTest_eq_raises h]
    exact ⟨rfl, fun _ _ => rfl⟩
  case drw | ldB | stRegs | ldRegs =>
    obtain ⟨addr, rfl⟩ | hw := Effect.checked_eq_raises h
    · exact ⟨rfl, fun _ _ => rfl⟩
    · cases hw
  case ret | ldVxK =>
    simp only [effect] at h
    split at h <;> cases h
  all_goals cases h

/-! ### The parts that are left alone -/

/-- An instruction that goes on does its writes, or raises a fault of R202 that names its address (R201). -/
theorem exec_next_cases {i : Instr} {s t : State} (h : exec i s = .next t) :
    (∃ w, effect i s = .writes w ∧ t = w.apply s) ∨
      (canFault i = true ∧ ∃ c : FaultCause, c.address = s.pc - 2 ∧
        t = { s with pc := s.pc - 2, halted := true, fault := some c }) := by
  rw [exec_eq_apply] at h
  cases he : effect i s with
  | writes w =>
    rw [he] at h
    cases h
    exact .inl ⟨w, rfl, rfl⟩
  | raises c =>
    rw [he] at h
    cases h
    obtain ⟨hi, hc⟩ := effect_raises he
    exact .inr ⟨hi, c (s.pc - 2), by rw [← hc _ 0, FaultCause.address_withAddress], rfl⟩
  | stops r => rw [he] at h; cases h

theorem Writes.apply_mem_of_none (w : Writes) (h : w.store = none) (s : State) : (w.apply s).mem = s.mem := by
  simp [Writes.apply, h]

theorem Writes.apply_index_of_none (w : Writes) (h : w.index = none) (s : State) : (w.apply s).index = s.index := by
  simp [Writes.apply, h]

theorem Writes.apply_sp_of_none (w : Writes) (h : w.sp = none) (s : State) : (w.apply s).sp = s.sp := by
  simp [Writes.apply, h]

theorem Writes.apply_stack_of_none (w : Writes) (h : w.push = none) (s : State) : (w.apply s).stack = s.stack := by
  simp [Writes.apply, h]

theorem Writes.apply_dt_of_none (w : Writes) (h : w.dt = none) (s : State) : (w.apply s).dt = s.dt := by
  simp [Writes.apply, h]

theorem Writes.apply_st_of_none (w : Writes) (h : w.st = none) (s : State) : (w.apply s).st = s.st := by
  simp [Writes.apply, h]

theorem Writes.apply_disp_of_none (w : Writes) (h : w.disp = none) (s : State) : (w.apply s).disp = s.disp := by
  simp [Writes.apply, h]

theorem Writes.apply_draws_of_zero (w : Writes) (h : w.drawn = 0) (s : State) : (w.apply s).draws = s.draws := by
  simp [Writes.apply, h]

theorem Writes.apply_pc_of_id (w : Writes) (h : w.pc = id) (s : State) : (w.apply s).pc = s.pc := by
  simp [Writes.apply, h]

/-- A register that no write names keeps its value. -/
theorem getElem_writeRegs_of_forall_ne {r : RegNum} {ps : List (RegNum × Byte)} (h : ∀ p ∈ ps, p.1 ≠ r)
    (v : Vector Byte 16) : (writeRegs v ps)[r.toNat]'r.isLt = v[r.toNat]'r.isLt := by
  induction ps generalizing v with
  | nil => rfl
  | cons p ps ih =>
    have hp : p.1.toNat ≠ r.toNat := fun e => h p (by simp) (BitVec.eq_of_toNat_eq e)
    rw [writeRegs, ih (fun q hq => h q (by simp [hq])), Vector.getElem_set_ne _ _ hp]

theorem Writes.keepsRegs_apply (w : Writes) {rs : List RegNum} (h : ∀ p ∈ w.regs, p.1 ∈ rs) (s : State) :
    KeepsRegs s (w.apply s) rs :=
  fun r hr => getElem_writeRegs_of_forall_ne (r := r) (fun p hp e => hr (e ▸ h p hp)) s.v

/-- Settles O17: an instruction that goes on does writes its row of R20 allows, part by part, or raises a fault, which
changes `pc` and the fault state only. -/
theorem eachPartIsWrittenOnlyByItsInstructions : Obligations.EachPartIsWrittenOnlyByItsInstructions := by
  unfold Obligations.EachPartIsWrittenOnlyByItsInstructions
  intro i s t h
  obtain ⟨w, he, rfl⟩ | ⟨hf, c, hc, rfl⟩ := exec_next_cases h
  · have hw := effect_allowed he
    refine ⟨fun h1 h2 => ?_, fun h1 h2 => w.apply_disp_of_none (hw.disp h1 h2) s,
      fun h1 h2 h3 => w.apply_index_of_none (hw.index h1 h2 h3) s, fun h1 h2 => w.apply_sp_of_none (hw.sp h1 h2) s,
      fun h1 => w.apply_stack_of_none (hw.push h1) s, fun h1 => w.apply_dt_of_none (hw.dt h1) s,
      fun h1 => w.apply_st_of_none (hw.st h1) s, fun h1 => w.apply_draws_of_zero (hw.drawn h1) s, rfl, rfl,
      w.keepsRegs_apply hw.regs s, .inl ⟨rfl, rfl, fun h1 => w.apply_pc_of_id (hw.pc h1) s⟩⟩
    have hmem := w.apply_mem_of_none (hw.store h1 h2) s
    exact ⟨hmem, fun a => by rw [hmem]⟩
  · exact ⟨fun _ _ => ⟨rfl, fun _ => rfl⟩, fun _ _ => rfl, fun _ _ _ => rfl, fun _ _ => rfl, fun _ => rfl, fun _ => rfl,
      fun _ => rfl, fun _ => rfl, rfl, rfl, fun _ _ => rfl, .inr ⟨hf, c, hc, rfl⟩⟩

/-! ### Control transfers -/

/-- The instructions that move `pc` are the jumps, CALL, RET, the skips and the key wait (R100). -/
theorem controlTransfer_of_movesPc {i : Instr} (h : movesPc i = true) :
    i = .ret ∨ (∃ nnn, i = .jp nnn ∨ i = .call nnn ∨ i = .jpV0 nnn) ∨
      (∃ x nn, i = .seImm x nn ∨ i = .sneImm x nn) ∨ (∃ x y, i = .seReg x y ∨ i = .sneReg x y) ∨
      ∃ x, i = .skp x ∨ i = .sknp x ∨ i = .ldVxK x := by
  cases i <;> simp [movesPc] at h ⊢

/-- Settles O18: from O17, where a state that is not halted shows that no fault was raised. -/
theorem onlyDestinationsAndControlTransfersWriteRegistersAndPc :
    Obligations.OnlyDestinationsAndControlTransfersWriteRegistersAndPc := by
  unfold Obligations.OnlyDestinationsAndControlTransfersWriteRegistersAndPc
  intro i s t h
  obtain ⟨-, -, -, -, -, -, -, -, -, -, hregs, hpc⟩ := eachPartIsWrittenOnlyByItsInstructions i s t h
  refine ⟨hregs, fun _ ht hne => controlTransfer_of_movesPc ?_⟩
  obtain ⟨-, -, hpc⟩ | ⟨-, c, -, rfl⟩ := hpc
  · by_contra hm
    exact hne (hpc (Bool.eq_false_iff.2 hm))
  · cases ht

end Sys2Proof.Machine

/-! The invariant of R24, R26, R27, R32 and R57: what writes keep it, that every step does. -/

namespace Sys2Proof.Machine

/-! ### Writes that keep the invariant -/

/-- The writes keep a state within the ranges of the invariant: the bytes stored lie in memory, `sp` stays below 16, no link
goes to `Stack[0]`, and the links and `pc` stay where the control rules allow. -/
structure Writes.InRange (w : Writes) (s : State) : Prop where
  store : ∀ a bs, w.store = some (a, bs) → a + bs.length ≤ memSize
  sp : ∀ b, w.sp = some b → b.toNat ≤ 15
  push : ∀ k link, w.push = some (k, link) → 0 < k ∧ (link s.pc).toNat ≤ 0x1000
  pc : (w.pc s.pc).toNat ≤ 0x10FE

theorem Writes.inv_apply {w : Writes} {s : State} (hs : s.Inv) (hw : w.InRange s) : (w.apply s).Inv where
  memCanonical := by
    cases h : w.store with
    | none => rw [w.apply_mem_of_none h]; exact hs.memCanonical
    | some p => simpa [Writes.apply, h] using Memory.wf_writeBytes hs.memCanonical (hw.store p.1 p.2 h)
  spInRange := by
    cases h : w.sp with
    | none => rw [w.apply_sp_of_none h]; exact hs.spInRange
    | some b => simpa [Writes.apply, h] using hw.sp b h
  stackZero := by
    cases h : w.push with
    | none => simpa only [w.apply_stack_of_none h] using hs.stackZero
    | some p =>
      have hne : p.1 ≠ 0 := (hw.push p.1 p.2 h).1.ne'
      simpa [Writes.apply, h, Vector.getElem_setIfInBounds, hne] using hs.stackZero
  linksInRange k hk := by
    cases h : w.push with
    | none => simpa only [w.apply_stack_of_none h] using hs.linksInRange k hk
    | some p =>
      simp only [Writes.apply, h, Vector.getElem_setIfInBounds]
      split
      · exact (hw.push p.1 p.2 h).2
      · exact hs.linksInRange k hk
  pcInRange := hw.pc
  faultAgrees := hs.faultAgrees

/-- Where neither memory, `sp` nor the stack is written, only the new `pc` is to be bounded. -/
theorem Writes.inRange_of_pc {w : Writes} {s : State} (hstore : w.store = none) (hsp : w.sp = none)
    (hpush : w.push = none) (hpc : (w.pc s.pc).toNat ≤ 0x10FE) : w.InRange s where
  store := by simp [hstore]
  sp := by simp [hsp]
  push := by simp [hpush]
  pc := hpc

theorem Writes.inRange_skip {c : Bool} {w : Writes} {s : State} (h : Effect.skip c = .writes w)
    (hpc : s.pc.toNat ≤ 0x1000) : w.InRange s := by
  cases h
  refine Writes.inRange_of_pc rfl rfl rfl ?_
  cases c <;> simp only [Bool.false_eq_true, if_true, if_false] <;> bv_omega

/-- The target of BNNN passes memory by less than 255 (R113). -/
theorem State.offsetTarget_toNat_le (s : State) {nnn : Word} (h : nnn.toNat < 0x1000) :
    (s.offsetTarget nnn).toNat ≤ 0x10FE := by
  have hv := (s.readV 0).isLt
  have hsum : ((s.readV 0).setWidth 16 + nnn).toNat ≤ 0x10FE := by
    rw [BitVec.toNat_add, BitVec.toNat_setWidth]
    omega
  unfold State.offsetTarget
  cases s.config.jumpOffsetMask with
  | none => exact hsum
  | mask12 => exact (BitVec.toNat_and .. ▸ Nat.and_le_left).trans hsum

/-- The link of CALL is the `pc` after the fetch or the address of the CALL, in memory or just past it (R103). -/
theorem State.linkAddress_toNat_le {s : State} (h2 : 2 ≤ s.pc.toNat) (hpc : s.pc.toNat ≤ 0x1000) :
    s.linkAddress.toNat ≤ 0x1000 := by
  unfold State.linkAddress
  cases s.config.callLink with
  | postFetch => exact hpc
  | preFetch => simp only; bv_omega

/-- RET takes a link the invariant bounds, and lowers `sp` or leaves it at 0 (R101). -/
theorem Writes.inRange_ret {s : State} {w : Writes} (hs : s.Inv) (h : effect .ret s = .writes w) : w.InRange s := by
  have hsp := hs.spInRange
  simp only [effect, stackEntry_of_lt s (show s.sp.toNat < 16 by omega)] at h
  cases h
  have hlink := hs.linksInRange s.sp.toNat (by omega)
  refine ⟨by simp, ?_, by simp, by simp only; omega⟩
  rintro b ⟨⟩
  split
  · decide
  · bv_omega

/-- CALL with room on the stack raises `sp` to 15 at most and writes an entry above `Stack[0]` (R103). -/
theorem Writes.inRange_call {s : State} {nnn : Word} {w : Writes} (h2 : 2 ≤ s.pc.toNat) (hpc : s.pc.toNat ≤ 0x1000)
    (hn : nnn.toNat < 0x1000) (h : effect (.call nnn) s = .writes w) : w.InRange s := by
  simp only [effect] at h
  split at h <;> cases h
  rename_i hroom
  have hroom : s.sp.toNat + 1 < 16 := not_le.1 hroom
  refine ⟨by simp, ?_, ?_, by simp only; omega⟩
  · rintro b ⟨⟩
    bv_omega
  · rintro k link ⟨⟩
    exact ⟨Nat.succ_pos _, State.linkAddress_toNat_le h2 hpc⟩

/-- After a fetch, the writes of a decoded instruction stay in range. -/
theorem effect_inRange {i : Instr} {s : State} {w : Writes} (hs : s.Inv) (h2 : 2 ≤ s.pc.toNat) (hpc : s.pc.toNat ≤ 0x1000)
    (hi : i.wellFormed = true) (h : effect i s = .writes w) : w.InRange s := by
  have hpc' : s.pc.toNat ≤ 0x10FE := by omega
  cases i
  case seImm | sneImm | seReg | sneReg => exact Writes.inRange_skip h hpc
  case skp | sknp =>
    obtain ⟨c, hc⟩ := Effect.keyTest_eq_writes h
    exact Writes.inRange_skip hc hpc
  case jp nnn =>
    have hn : nnn.toNat < 0x1000 := of_decide_eq_true hi
    cases h
    exact Writes.inRange_of_pc rfl rfl rfl (by simp only; omega)
  case jpV0 nnn =>
    have hn : nnn.toNat < 0x1000 := of_decide_eq_true hi
    cases h
    exact Writes.inRange_of_pc rfl rfl rfl (s.offsetTarget_toNat_le hn)
  case ldVxK x =>
    simp only [effect] at h
    split at h <;> cases h
    · exact Writes.inRange_of_pc rfl rfl rfl hpc'
    · exact Writes.inRange_of_pc rfl rfl rfl (by simp only; bv_omega)
  case ret => exact Writes.inRange_ret hs h
  case call nnn => exact Writes.inRange_call h2 hpc (of_decide_eq_true hi) h
  case ldB | stRegs =>
    obtain ⟨hfit, hw⟩ := Effect.checked_eq_writes h
    cases hw
    refine ⟨?_, by simp, by simp, hpc'⟩
    rintro a bs ⟨⟩
    exact hfit.resolve_left (by simp)
  case drw | ldRegs =>
    obtain ⟨-, hw⟩ := Effect.checked_eq_writes h
    cases hw
    exact Writes.inRange_of_pc rfl rfl rfl hpc'
  all_goals
    cases h
    exact Writes.inRange_of_pc rfl rfl rfl hpc'

/-! ### Every step keeps it -/

theorem State.Inv.haltWith {s : State} (hs : s.Inv) (c : FaultCause) : (haltWith c s).Inv :=
  ⟨hs.memCanonical, hs.spInRange, hs.stackZero, hs.linksInRange, hs.pcInRange, rfl⟩

/-- Fetch leaves `pc` in memory or just past it (R55). -/
theorem pc_advance_bounds {s : State} (h : s.pc.toNat + 1 < memSize) :
    2 ≤ (advance s).pc.toNat ∧ (advance s).pc.toNat ≤ 0x1000 := by
  have h : s.pc.toNat + 1 < 4096 := h
  rw [advance_pc]
  constructor <;> bv_omega

theorem State.Inv.advance {s : State} (hs : s.Inv) (h : s.pc.toNat + 1 < memSize) : (advance s).Inv :=
  ⟨hs.memCanonical, hs.spInRange, hs.stackZero, hs.linksInRange, (pc_advance_bounds h).2.trans (by decide), hs.faultAgrees⟩

/-- A fetched instruction that goes on keeps the invariant, and so does the fault it raises. -/
theorem inv_of_exec_advance {s t : State} {i : Instr} (hs : s.Inv) (hi : Fetches s i)
    (h : exec i (advance s) = .next t) : t.Inv := by
  rw [exec_eq_apply] at h
  cases he : effect i (advance s) with
  | writes w =>
    rw [he] at h
    cases h
    obtain ⟨h2, hpc⟩ := pc_advance_bounds hi.1
    have hadv := hs.advance hi.1
    exact Writes.inv_apply hadv (effect_inRange hadv h2 hpc (wellFormed_of_decodeWord hi.2) he)
  | raises c =>
    rw [he, Effect.apply, raise_advance] at h
    cases h
    exact hs.haltWith _
  | stops r => rw [he] at h; cases h

/-- Settles O14, by what a step can be: nothing on a halted block, a recorded fault, or an instruction whose writes stay in
range. -/
theorem stepKeepsTheInvariant : Obligations.StepKeepsTheInvariant := by
  unfold Obligations.StepKeepsTheInvariant
  intro s t hs h
  cases hh : s.halted with
  | true =>
    rw [step_of_halted hh] at h
    cases h
    exact hs
  | false =>
    obtain ⟨-, he⟩ | ⟨-, -, he⟩ | ⟨i, hi, he⟩ := step_cases hh
    · rw [he] at h
      cases h
      exact hs.haltWith _
    · rw [he] at h
      cases h
      exact hs.haltWith _
    · exact inv_of_exec_advance hs hi (he ▸ h)

end Sys2Proof.Machine

/-! What every session keeps: when a step answers a next state, and what the host's commands do to the invariant, the fault
state and the parameters (R32, R36, R210, R215). -/

namespace Sys2Proof.Machine

/-! ### When a step stops the model -/

/-- Settles O13: of the outcomes of a step, only RET past the stack is no next state, and the invariant bounds `sp`. -/
theorem stepAnswersNextUnlessReturnReadsPastTheStack : Obligations.StepAnswersNextUnlessReturnReadsPastTheStack := by
  unfold Obligations.StepAnswersNextUnlessReturnReadsPastTheStack
  intro s
  have hstep : (∃ t, step s = .next t) ∨
      (s.halted = false ∧ Fetches s .ret ∧ 15 < s.sp.toNat ∧ step s = .fault (.stackReadOutOfRange s.sp)) := by
    cases hh : s.halted with
    | true => exact .inl ⟨s, step_of_halted hh⟩
    | false =>
      obtain ⟨-, he⟩ | ⟨-, -, he⟩ | ⟨i, hi, he⟩ := step_cases hh
      · exact .inl ⟨_, he⟩
      · exact .inl ⟨_, he⟩
      · rw [he]
        obtain ⟨-, c, -, -, hx⟩ | ⟨t, hx, -⟩ | ⟨rfl, hsp, hx⟩ := exec_cases i (advance s)
        · exact .inl ⟨_, hx⟩
        · exact .inl ⟨t, hx⟩
        · exact .inr ⟨rfl, hi, hsp, hx⟩
  refine ⟨hstep, fun hs => hstep.resolve_right ?_⟩
  rintro ⟨-, -, hsp, -⟩
  exact absurd hs.spInRange (by omega)

/-! ### Host commands -/

/-- A load that is not refused fits, and changes memory only (R216). -/
theorem loadBytes_eq_next {addr : Nat} {bytes : List Byte} {s t : State} (h : loadBytes addr bytes s = .next t) :
    addr + bytes.length ≤ memSize ∧ t = { s with mem := s.mem.writeBytes addr bytes } := by
  unfold loadBytes at h
  split at h <;> cases h
  exact ⟨by omega, rfl⟩

/-- `set_key`, where it is not refused, changes the keys only (R218). -/
theorem setKey_eq_next {k : Nat} {down : Bool} {s t : State} (h : setKey k down s = .next t) :
    t = { s with key := t.key } := by
  unfold setKey at h
  split at h <;> cases h
  rfl

/-- `get_pixel`, as a command, changes nothing (R223). -/
theorem runCommand_getPixel_eq_next {x y : Nat} {s t : State} (h : runCommand (.getPixel x y) s = .next t) : t = s := by
  simp only [runCommand] at h
  split at h <;> cases h
  rfl

/-- Settles O11: no host operation writes the fault state, and a step of a halted block does nothing. -/
theorem onlyCreationClearsTheFaultState : Obligations.OnlyCreationClearsTheFaultState := by
  unfold Obligations.OnlyCreationClearsTheFaultState
  intro cmd s t h hcreate hs
  cases cmd with
  | create => exact absurd rfl hcreate
  | step =>
    have hstep := step_of_halted (hs.resolve_right (fun hne => hne rfl))
    cases hstep.symm.trans h
    exact ⟨rfl, rfl⟩
  | loadBytes addr bytes =>
    obtain ⟨-, rfl⟩ := loadBytes_eq_next h
    exact ⟨rfl, rfl⟩
  | setKey k down =>
    rw [setKey_eq_next h]
    exact ⟨rfl, rfl⟩
  | getPixel x y =>
    rw [runCommand_getPixel_eq_next h]
    exact ⟨rfl, rfl⟩
  | loadFont | start | tick | readState =>
    cases h
    exact ⟨rfl, rfl⟩

/-- No step changes the parameters (R36). -/
theorem config_of_step {s t : State} (h : step s = .next t) : t.config = s.config := by
  cases hh : s.halted with
  | true => cases (step_of_halted hh).symm.trans h; rfl
  | false =>
    obtain ⟨-, he⟩ | ⟨-, -, he⟩ | ⟨i, -, he⟩ := step_cases hh
    · cases he.symm.trans h; rfl
    · cases he.symm.trans h; rfl
    · obtain ⟨w, -, rfl⟩ | ⟨-, c, -, rfl⟩ := exec_next_cases (he.symm.trans h) <;> rfl

/-- No host command changes the parameters (R36). -/
theorem config_of_runCommand {cmd : Command} {s t : State} (h : runCommand cmd s = .next t) : t.config = s.config := by
  cases cmd with
  | step => exact config_of_step h
  | loadBytes addr bytes =>
    obtain ⟨-, rfl⟩ := loadBytes_eq_next h
    rfl
  | setKey k down => rw [setKey_eq_next h]
  | getPixel x y => rw [runCommand_getPixel_eq_next h]
  | create | loadFont | start | tick | readState => cases h; rfl

theorem State.inv_create (c : Config) : (State.create c).Inv where
  memCanonical := rfl
  spInRange := Nat.zero_le _
  stackZero := State.getElem_stack_create c (by decide)
  linksInRange k hk := by rw [State.getElem_stack_create c hk]; decide
  pcInRange := Nat.zero_le _
  faultAgrees := rfl

/-- Settles O15: the machine after reset is the created one at the default parameters. -/
theorem resetMeetsTheInvariant : Obligations.ResetMeetsTheInvariant := by
  unfold Obligations.ResetMeetsTheInvariant
  exact ⟨State.inv_create _, State.inv_create⟩

/-- The invariant speaks of memory, `sp`, the stack, `pc` and the fault state only. -/
theorem State.Inv.congr {s t : State} (hs : s.Inv) (hmem : t.mem = s.mem) (hsp : t.sp = s.sp) (hstack : t.stack = s.stack)
    (hpc : t.pc = s.pc) (hhalted : t.halted = s.halted) (hfault : t.fault = s.fault) : t.Inv where
  memCanonical := hmem ▸ hs.memCanonical
  spInRange := hsp ▸ hs.spInRange
  stackZero := hstack ▸ hs.stackZero
  linksInRange := hstack ▸ hs.linksInRange
  pcInRange := hpc ▸ hs.pcInRange
  faultAgrees := hhalted ▸ hfault ▸ hs.faultAgrees

/-- A load that fits keeps the invariant. -/
theorem State.Inv.withBytes {s : State} (hs : s.Inv) {a : Nat} {bs : List Byte} (h : a + bs.length ≤ memSize) :
    { s with mem := s.mem.writeBytes a bs }.Inv :=
  ⟨Memory.wf_writeBytes hs.memCanonical h, hs.spInRange, hs.stackZero, hs.linksInRange, hs.pcInRange, hs.faultAgrees⟩

theorem State.Inv.start {s : State} (hs : s.Inv) : (start s).Inv :=
  ⟨hs.memCanonical, hs.spInRange, hs.stackZero, hs.linksInRange, by rw [start_pc]; decide,
    hs.faultAgrees⟩

/-- Every host command keeps the invariant. -/
theorem inv_of_runCommand {cmd : Command} {s t : State} (hs : s.Inv) (h : runCommand cmd s = .next t) : t.Inv := by
  cases cmd with
  | create =>
    cases h
    exact (State.inv_create s.config).congr rfl rfl rfl rfl rfl rfl
  | loadFont =>
    cases h
    exact hs.withBytes (by rw [Vector.length_toList]; decide)
  | loadBytes addr bytes =>
    obtain ⟨hfit, rfl⟩ := loadBytes_eq_next h
    exact hs.withBytes hfit
  | start =>
    cases h
    exact hs.start
  | step => exact stepKeepsTheInvariant s t hs h
  | setKey k down =>
    rw [setKey_eq_next h]
    exact hs.congr rfl rfl rfl rfl rfl rfl
  | tick =>
    cases h
    exact hs.congr rfl rfl rfl rfl rfl rfl
  | getPixel x y => rwa [runCommand_getPixel_eq_next h]
  | readState =>
    cases h
    exact hs

/-- Settles O16, by induction on the session: it begins with a creation, and every command keeps both. -/
theorem sessionsKeepTheInvariantAndTheParameters : Obligations.SessionsKeepTheInvariantAndTheParameters := by
  unfold Obligations.SessionsKeepTheInvariantAndTheParameters
  intro c s h
  induction h with
  | created => exact ⟨State.inv_create c, rfl⟩
  | command cmd _ hcmd ih => exact ⟨inv_of_runCommand ih.1 hcmd, (config_of_runCommand hcmd).trans ih.2⟩

end Sys2Proof.Machine

/-! Who reads each part of the state (R20, R23): the effect of an instruction does not depend on a part it does not read, and its
writes then go to a state that differs in that part only. -/

namespace Sys2Proof.Machine

/-! ### Non-interference of an update -/

theorem mapNext_id (r : Result) : mapNext (fun t => t) r = r := by
  cases r <;> rfl

/-- An update `f` that an instruction does not see: the outcome with it, seen through `g`, is the outcome without it, seen through
`g'`, if that holds of each write and of each fault. -/
theorem mapNext_exec_congr {f g g' : State → State} {i : Instr} {s : State} (hread : effect i (f s) = effect i s)
    (hraise : ∀ c, effect i s = .raises c → mapNext g (raise c (f s)) = mapNext g' (raise c s))
    (hwrite : ∀ w, effect i s = .writes w → g (w.apply (f s)) = g' (w.apply s)) :
    mapNext g (exec i (f s)) = mapNext g' (exec i s) := by
  rw [exec_eq_apply, exec_eq_apply, hread]
  cases he : effect i s with
  | writes w => exact congrArg Host.Outcome.next (hwrite w he)
  | raises c => exact hraise c he
  | stops r => rfl

/-- An update `f` that an instruction neither sees nor overwrites stays, and the rest of the outcome is as without it. -/
theorem exec_comm {f : State → State} {i : Instr} {s : State} (hread : effect i (f s) = effect i s)
    (hraise : ∀ c, raise c (f s) = mapNext f (raise c s))
    (hwrite : ∀ w, effect i s = .writes w → w.apply (f s) = f (w.apply s)) :
    exec i (f s) = mapNext f (exec i s) := by
  rw [← mapNext_id (exec i (f s))]
  exact mapNext_exec_congr hread (fun c _ => (mapNext_id _).trans (hraise c)) hwrite

/-! ### What the effect does not depend on -/

section
variable (i : Instr) (s : State)

theorem effect_with_st (b : Byte) : effect i { s with st := b } = effect i s := by
  cases i <;> rfl

theorem effect_with_halted_fault (h : Bool) (f : Option FaultCause) :
    effect i { s with halted := h, fault := f } = effect i s := by
  cases i <;> rfl

theorem effect_with_pc (p : Word) : effect i { s with pc := p } = effect i s := by
  cases i <;> rfl

variable {i}

theorem effect_with_dt (b : Byte) (h : ∀ x, i ≠ .ldVxDt x) : effect i { s with dt := b } = effect i s := by
  cases i
  case ldVxDt x => exact absurd rfl (h x)
  all_goals rfl

theorem effect_with_key (k : Vector Bool 16) (h1 : ∀ x, i ≠ .skp x) (h2 : ∀ x, i ≠ .sknp x) (h3 : ∀ x, i ≠ .ldVxK x) :
    effect i { s with key := k } = effect i s := by
  cases i
  case skp x => exact absurd rfl (h1 x)
  case sknp x => exact absurd rfl (h2 x)
  case ldVxK x => exact absurd rfl (h3 x)
  all_goals rfl

theorem effect_with_disp (d : Display) (h : ∀ x y n, i ≠ .drw x y n) : effect i { s with disp := d } = effect i s := by
  cases i
  case drw x y n => exact absurd rfl (h x y n)
  all_goals rfl

theorem effect_with_stack (k : Vector Word 16) (h : i ≠ .ret) : effect i { s with stack := k } = effect i s := by
  cases i
  case ret => exact absurd rfl h
  all_goals rfl

theorem effect_with_draws (n : Nat) (h : ∀ x nn, i ≠ .rnd x nn) : effect i { s with draws := n } = effect i s := by
  cases i
  case rnd x nn => exact absurd rfl (h x nn)
  all_goals rfl

theorem effect_with_mem (m : Memory) (h1 : ∀ x y n, i ≠ .drw x y n) (h2 : ∀ x, i ≠ .ldRegs x) :
    effect i { s with mem := m } = effect i s := by
  cases i
  case drw x y n => exact absurd rfl (h1 x y n)
  case ldRegs x => exact absurd rfl (h2 x)
  all_goals rfl

theorem effect_with_index (a : Word) (h1 : ∀ x y n, i ≠ .drw x y n) (h2 : ∀ x, i ≠ .addI x) (h3 : ∀ x, i ≠ .ldB x)
    (h4 : ∀ x, i ≠ .stRegs x) (h5 : ∀ x, i ≠ .ldRegs x) : effect i { s with index := a } = effect i s := by
  cases i
  case drw x y n => exact absurd rfl (h1 x y n)
  case addI x => exact absurd rfl (h2 x)
  case ldB x => exact absurd rfl (h3 x)
  case stRegs x => exact absurd rfl (h4 x)
  case ldRegs x => exact absurd rfl (h5 x)
  all_goals rfl

theorem effect_with_sp (b : Byte) (h1 : i ≠ .ret) (h2 : ∀ nnn, i ≠ .call nnn) :
    effect i { s with sp := b } = effect i s := by
  cases i
  case ret => exact absurd rfl h1
  case call nnn => exact absurd rfl (h2 nnn)
  all_goals rfl

end

/-! ### Timers, keys, display, stack and draws -/

section
variable {i : Instr} (s : State)

theorem exec_with_st (b : Byte) (h : ∀ x, i ≠ .ldSt x) :
    exec i { s with st := b } = mapNext (fun t => { t with st := b }) (exec i s) :=
  exec_comm (f := fun t => { t with st := b }) (effect_with_st i s b) (fun _ => rfl)
    fun w hw => by simp [Writes.apply, (effect_allowed hw).st h]

theorem exec_with_dt (b : Byte) (h1 : ∀ x, i ≠ .ldVxDt x) (h2 : ∀ x, i ≠ .ldDt x) :
    exec i { s with dt := b } = mapNext (fun t => { t with dt := b }) (exec i s) :=
  exec_comm (f := fun t => { t with dt := b }) (effect_with_dt s b h1) (fun _ => rfl)
    fun w hw => by simp [Writes.apply, (effect_allowed hw).dt h2]

theorem exec_with_disp (d : Display) (h1 : i ≠ .cls) (h2 : ∀ x y n, i ≠ .drw x y n) :
    exec i { s with disp := d } = mapNext (fun t => { t with disp := d }) (exec i s) :=
  exec_comm (f := fun t => { t with disp := d }) (effect_with_disp s d h2) (fun _ => rfl)
    fun w hw => by simp [Writes.apply, (effect_allowed hw).disp h1 h2]

theorem exec_with_stack (k : Vector Word 16) (h1 : i ≠ .ret) (h2 : ∀ nnn, i ≠ .call nnn) :
    exec i { s with stack := k } = mapNext (fun t => { t with stack := k }) (exec i s) :=
  exec_comm (f := fun t => { t with stack := k }) (effect_with_stack s k h1) (fun _ => rfl)
    fun w hw => by simp [Writes.apply, (effect_allowed hw).push h2]

theorem exec_with_draws (n : Nat) (h : ∀ x nn, i ≠ .rnd x nn) :
    exec i { s with draws := n } = mapNext (fun t => { t with draws := n }) (exec i s) :=
  exec_comm (f := fun t => { t with draws := n }) (effect_with_draws s n h) (fun _ => rfl)
    fun w hw => by simp [Writes.apply, (effect_allowed hw).drawn h]

theorem exec_with_key (k : Vector Bool 16) (h1 : ∀ x, i ≠ .skp x) (h2 : ∀ x, i ≠ .sknp x) (h3 : ∀ x, i ≠ .ldVxK x) :
    exec i { s with key := k } = mapNext (fun t => { t with key := k }) (exec i s) :=
  exec_comm (f := fun t => { t with key := k }) (effect_with_key s k h1 h2 h3) (fun _ => rfl) fun _ _ => rfl

end

/-- Settles O19, a clause for each part: the effect does not depend on it, and an instruction that writes the part either
overwrites it or is left out. -/
theorem timersKeysDisplayStackAndDrawsAreReadOnlyByTheirInstructions :
    Obligations.TimersKeysDisplayStackAndDrawsAreReadOnlyByTheirInstructions := by
  unfold Obligations.TimersKeysDisplayStackAndDrawsAreReadOnlyByTheirInstructions
  intro i s
  refine ⟨fun b => ?_, fun b hdt => ?_, fun k => exec_with_key s k, fun d hdrw => ?_, fun k => exec_with_stack s k,
    fun k hret => ?_, fun n => exec_with_draws s n⟩
  · by_cases hi : ∃ x, i = .ldSt x
    · obtain ⟨x, rfl⟩ := hi
      simp only [Instr.ldSt.injEq, exists_eq', if_true, mapNext_id]
      rfl
    · simp only [hi, if_false]
      exact exec_with_st s b (not_exists.1 hi)
  · by_cases hi : ∃ x, i = .ldDt x
    · obtain ⟨x, rfl⟩ := hi
      simp only [Instr.ldDt.injEq, exists_eq', if_true, mapNext_id]
      rfl
    · simp only [hi, if_false]
      exact exec_with_dt s b hdt (not_exists.1 hi)
  · by_cases hi : i = .cls
    · subst hi
      rfl
    · simp only [hi, if_false]
      exact exec_with_disp s d hi hdrw
  · exact mapNext_exec_congr (f := fun t => { t with stack := k }) (effect_with_stack s k hret) (fun _ _ => rfl) fun _ _ => rfl

/-! ### Memory, `I` and `sp` -/

section
variable {i : Instr} (s : State)

theorem exec_with_mem (m : Memory) (h1 : ∀ x, i ≠ .ldB x) (h2 : ∀ x, i ≠ .stRegs x) (h3 : ∀ x y n, i ≠ .drw x y n)
    (h4 : ∀ x, i ≠ .ldRegs x) : exec i { s with mem := m } = mapNext (fun t => { t with mem := m }) (exec i s) :=
  exec_comm (f := fun t => { t with mem := m }) (effect_with_mem s m h3 h4) (fun _ => rfl)
    fun w hw => by simp [Writes.apply, (effect_allowed hw).store h1 h2]

theorem exec_with_sp (b : Byte) (h1 : i ≠ .ret) (h2 : ∀ nnn, i ≠ .call nnn) :
    exec i { s with sp := b } = mapNext (fun t => { t with sp := b }) (exec i s) :=
  exec_comm (f := fun t => { t with sp := b }) (effect_with_sp s b h1 h2) (fun _ => rfl)
    fun w hw => by simp [Writes.apply, (effect_allowed hw).sp h2 h1]

end

/-- Settles O20, a clause for each part, as O19. -/
theorem memoryIndexAndStackPointerAreReadOnlyByTheirInstructions :
    Obligations.MemoryIndexAndStackPointerAreReadOnlyByTheirInstructions := by
  unfold Obligations.MemoryIndexAndStackPointerAreReadOnlyByTheirInstructions
  intro i s
  refine ⟨fun m hdrw hld => ?_, fun m => exec_with_mem s m, fun a hdrw hadd hb hst hld => ?_, fun b => exec_with_sp s b⟩
  · exact mapNext_exec_congr (f := fun t => { t with mem := m }) (effect_with_mem s m hdrw hld) (fun _ _ => rfl) fun _ _ => rfl
  · by_cases hi : (∃ nnn, i = .ldI nnn) ∨ ∃ x, i = .ldF x
    · simp only [hi, if_true, mapNext_id]
      obtain ⟨nnn, rfl⟩ | ⟨x, rfl⟩ := hi <;> rfl
    · simp only [hi, if_false]
      obtain ⟨hldI, hldF⟩ := not_or.1 hi
      refine exec_comm (f := fun t => { t with index := a }) (effect_with_index s a hdrw hadd hb hst hld) (fun _ => rfl)
        fun w hw => ?_
      simp [Writes.apply, (effect_allowed hw).index (not_exists.1 hldI) hadd (not_exists.1 hldF)]

/-! ### `pc` and the fault state -/

/-- A cause an instruction raises depends on `pc` in its address only (R202). -/
theorem withAddress_raised {i : Instr} {s : State} {c : Word → FaultCause} (h : effect i s = .raises c) (a b : Word) :
    (c a).withAddress 0 = (c b).withAddress 0 := by
  rw [(effect_raises h).2, (effect_raises h).2]

/-- Settles O21: the effect depends on neither; the new `pc`, the link and the address of a fault are worked out from `pc` when
it is applied, and a fault writes the fault state whatever it was. -/
theorem pcAndTheFaultStateDecideNoOtherPart : Obligations.PcAndTheFaultStateDecideNoOtherPart := by
  unfold Obligations.PcAndTheFaultStateDecideNoOtherPart
  intro i s
  refine ⟨fun p hcall => ?_, fun p => ?_, ?_⟩
  · refine mapNext_exec_congr (f := fun t => { t with pc := p }) (effect_with_pc i s p) (fun c hc => ?_) fun w hw => ?_
    · simpa [raise_eq, State.faultWithoutAddress] using withAddress_raised hc (p - 2) (s.pc - 2)
    · simp [Writes.apply, State.faultWithoutAddress, (effect_allowed hw).push hcall]
  · refine mapNext_exec_congr (f := fun t => { t with pc := p }) (effect_with_pc i s p) (fun c hc => ?_) fun w hw => ?_
    · simpa [raise_eq, State.faultWithoutAddress] using withAddress_raised hc (p - 2) (s.pc - 2)
    · rfl
  · simp only [exec_eq_apply, effect_with_halted_fault]
    cases effect i s with
    | writes w => exact .inl fun _ _ => rfl
    | raises c => exact .inr fun _ _ => rfl
    | stops r => exact .inl fun _ _ => rfl

/-! ### The `V` registers -/

section
variable {s : State} {r : RegNum} (b : Byte)

theorem State.readV_writeV_of_ne {x : RegNum} (h : r ≠ x) : (s.writeV r b).readV x = s.readV x := by
  rw [State.readV_writeV, if_neg h]

/-- The shifts read the register `ShiftSource` names (R129, R130). -/
theorem State.shiftOperand_writeV {x y : RegNum} (h : r ∉ sourceRegs s.config (.shr x y)) :
    (s.writeV r b).shiftOperand x y = s.shiftOperand x y := by
  unfold State.shiftOperand
  simp only [sourceRegs, State.writeV_config] at h ⊢
  cases hc : s.config.shiftSource <;> rw [hc] at h <;>
    exact State.readV_writeV_of_ne b (List.ne_of_not_mem_cons h)

theorem State.firstRegs_writeV {n : Nat} (h : r ∉ (List.range n).map (BitVec.ofNat 4)) :
    (s.writeV r b).firstRegs n = s.firstRegs n :=
  List.map_congr_left fun k hk => State.readV_writeV_of_ne b fun e => h (List.mem_map.2 ⟨k, hk, e.symm⟩)

theorem Effect.keyTest_writeV {x : RegNum} (h : r ≠ x) (down : Bool) :
    Effect.keyTest x down (s.writeV r b) = Effect.keyTest x down s := by
  simp only [Effect.keyTest, State.readV_writeV_of_ne b h]
  rfl

theorem State.blit_writeV {x y : RegNum} (hx : r ≠ x) (hy : r ≠ y) (n : Nat) :
    (s.writeV r b).blit x y n = s.blit x y n := by
  simp [State.blit, State.originX, State.originY, State.readV_writeV_of_ne b hx, State.readV_writeV_of_ne b hy]

/-- The effect does not depend on a register that is no source operand (R23). -/
theorem effect_writeV {i : Instr} (h : r ∉ sourceRegs s.config i) : effect i (s.writeV r b) = effect i s := by
  cases i
  case seReg x y | sneReg x y | orReg x y | andReg x y | xorReg x y | addReg x y | sub x y | subn x y =>
    obtain ⟨hx, hy⟩ : r ≠ x ∧ r ≠ y := by simpa [sourceRegs] using h
    simp only [effect, State.readV_writeV_of_ne b hx, State.readV_writeV_of_ne b hy, State.writeV_config]
  case seImm x _ | sneImm x _ | addImm x _ | ldReg _ x | ldDt x | ldSt x | addI x | ldF x | jpV0 =>
    simp only [sourceRegs, List.mem_singleton] at h
    simp only [effect, State.offsetTarget, State.readV_writeV_of_ne b h, State.writeV_index, State.writeV_config]
  case ldB x =>
    simp only [sourceRegs, List.mem_singleton] at h
    simp only [effect, State.readV_writeV_of_ne b h]
    rfl
  case drw x y n =>
    obtain ⟨hx, hy⟩ : r ≠ x ∧ r ≠ y := by simpa [sourceRegs] using h
    simp only [effect, State.blit_writeV b hx hy]
    rfl
  case skp x | sknp x => exact Effect.keyTest_writeV b (List.ne_of_not_mem_cons h) _
  case shr x y | shl x y =>
    have hop := State.shiftOperand_writeV (x := x) (y := y) b h
    simp only [effect, hop]
  case stRegs x =>
    have hregs := State.firstRegs_writeV (s := s) b h
    simp only [effect, hregs]
    rfl
  all_goals rfl

end

/-- A register written after all others hides what it held before. -/
theorem writeRegs_set (v : Vector Byte 16) (r : RegNum) (b : Byte) (ps : List (RegNum × Byte)) :
    (writeRegs (v.set r.toNat b r.isLt) ps).set r.toNat b r.isLt = (writeRegs v ps).set r.toNat b r.isLt := by
  induction ps generalizing v with
  | nil => exact Vector.set_set ..
  | cons p ps ih =>
    obtain ⟨x, c⟩ := p
    by_cases hx : r = x
    · subst hx
      simp only [writeRegs, Vector.set_set]
    · have hne : r.toNat ≠ x.toNat := fun e => hx (BitVec.eq_of_toNat_eq e)
      rw [writeRegs, Vector.set_comm _ _ hne]
      exact ih _

/-- Settles O22: the effect does not depend on the register, and once it is written at the end, neither does the outcome. -/
theorem registersAreReadOnlyAsOperands : Obligations.RegistersAreReadOnlyAsOperands := by
  unfold Obligations.RegistersAreReadOnlyAsOperands
  intro i s r b h
  refine mapNext_exec_congr (f := fun t => t.writeV r b) (effect_writeV b h) (fun c _ => ?_) fun w _ => ?_
  · simp [raise_eq, State.writeV, Vector.set_set]
  · simp [Writes.apply, State.writeV, writeRegs_set]

end Sys2Proof.Machine

/-! RND: its word, and the masked draw (R35, R131). -/

namespace Sys2Proof.Machine

/-- The word of a family with its X and low byte, as a sum and from its nibbles. -/
theorem xnnWord_eq_wordXNN {base : Nat} (f : BitVec 4) (hbase : base = f.toNat * 4096) (x : RegNum) (nn : Byte) :
    xnnWord base x nn = wordXNN f x nn := by
  apply BitVec.eq_of_toNat_eq
  have hx := x.isLt
  have hf := f.isLt
  have hnn := nn.isLt
  rw [wordXNN_toNat, xnnWord, BitVec.toNat_ofNat, hbase]
  omega

theorem encodes_rnd (x : RegNum) (nn : Byte) : Encodes (xnnWord 0xC000 x nn) (.rnd x nn) := by
  rw [xnnWord_eq_wordXNN (base := 0xC000) 0xC rfl]
  exact Laws.RoundTrip.rnd x nn rfl

theorem keepsRegs_writeV (s : State) (x : RegNum) (b : Byte) : KeepsRegs s (s.writeV x b) [x] := fun r hr => by
  rw [State.readV_writeV, if_neg (fun e => hr (by simp [e]))]

theorem readV_rndWith (rand : Byte) (x : RegNum) (nn : Byte) (s : State) : (rndWith rand x nn s).readV x = rand &&& nn := by
  rw [rndWith, State.readV_writeV, if_pos rfl]

/-- Settles O33: the next state writes `V[x]` and the draw counter only, and what is written holds for any drawn byte. -/
theorem randomWritesTheMaskedDraw : Obligations.RandomWritesTheMaskedDraw := by
  unfold Obligations.RandomWritesTheMaskedDraw
  intro s x nn
  have hread := readV_rndWith (Config.rand s.draws) x nn s
  refine ⟨encodes_rnd x nn, ⟨_, rfl, hread, rfl, ?_, rfl, keepsRegs_writeV s x _, fun _ => rfl⟩,
    fun rand => readV_rndWith rand x nn s⟩
  rintro rfl
  exact hread.trans BitVec.and_zero

end Sys2Proof.Machine

/-! DRW: its word, the blit from the wrapped origin, and the collision (R151, R152). -/

namespace Sys2Proof.Machine

theorem encodes_drw (x y : RegNum) {n : Nat} (h : n < 16) :
    Encodes (BitVec.ofNat 16 (0xD000 + 256 * x.toNat + 16 * y.toNat + n)) (.drw x y n) := by
  have hword : BitVec.ofNat 16 (0xD000 + 256 * x.toNat + 16 * y.toNat + n) = encode (.drw x y n) := by
    apply BitVec.eq_of_toNat_eq
    have hx := x.isLt
    have hy := y.isLt
    rw [encode, wordXYN_toNat, BitVec.toNat_ofNat, BitVec.toNat_ofNat, show BitVec.toNat (0xD : BitVec 4) = 13 from rfl]
    omega
  rw [hword]
  exact Laws.RoundTrip.drw x y n (decide_eq_true h)

/-- The pixels under the sprite are those the blit covers, from the wrapped origin. -/
theorem drawCovers_iff (s : State) (x y : RegNum) (n px py : Nat) :
    DrawCovers s x y n px py ↔
      spriteCovers (s.mem.readBytes s.index.toNat n) (s.originX x) (s.originY y) px py := by
  unfold DrawCovers State.originY
  cases s.config.drawYWrap <;> rfl

/-- A draw whose bytes lie in memory changes the display and `VF`. -/
theorem exec_drw_of_fits {s : State} {x y : RegNum} {n : Nat} (h : n = 0 ∨ s.index.toNat + n ≤ memSize) :
    exec (.drw x y n) s =
      .next ({ s with disp := (s.blit x y n).disp }.writeV VF (flagByte (s.blit x y n).hit)) := by
  simp only [exec, execDrw, (badAddress_eq_none_iff _ _).2 h]
  rfl

/-- A lit cell lies in the frame. -/
theorem Display.lt_of_lit {d : Display} {x y : Nat} (h : d.lit x y = true) : x < 64 ∧ y < 32 := by
  by_contra hout
  rw [Display.lit_outside d (by omega)] at h
  cases h

/-- The blit hits exactly when it turns a lit cell of the frame dark. -/
theorem State.hit_blit (s : State) (x y : RegNum) (n : Nat) :
    (s.blit x y n).hit = true ↔
      ∃ px py, px < 64 ∧ py < 32 ∧ DrawCovers s x y n px py ∧ s.disp.lit px py = true := by
  simp only [State.blit, Blit.hit_rows, Bool.false_eq_true, false_or, drawCovers_iff]
  constructor
  · rintro ⟨px, py, hcover, hlit⟩
    obtain ⟨hx, hy⟩ := Display.lt_of_lit hlit
    exact ⟨px, py, hx, hy, hcover, hlit⟩
  · rintro ⟨px, py, -, -, hcover, hlit⟩
    exact ⟨px, py, hcover, hlit⟩

/-- Settles O35: the cells and the collision are those of the blit, and the next state differs in the display and `VF` only. -/
theorem drawXorsTheSpriteAndReportsCollision : Obligations.DrawXorsTheSpriteAndReportsCollision := by
  unfold Obligations.DrawXorsTheSpriteAndReportsCollision
  intro s x y n
  refine ⟨encodes_drw x y, fun hfits => ⟨_, exec_drw_of_fits hfits, fun px py hx hy => ?_, fun hhit => ?_, fun hmiss => ?_, rfl,
    keepsRegs_writeV _ VF _, fun _ => rfl⟩⟩
  · rw [drawCovers_iff]
    exact Blit.lit_rows ⟨s.disp, false⟩ (s.originX x) (s.originY y) _ hx hy
  · rw [State.readV_writeV, if_pos rfl, (State.hit_blit s x y n).2 hhit]
    rfl
  · rw [State.readV_writeV, if_pos rfl, Bool.eq_false_iff.2 (fun h => hmiss ((State.hit_blit s x y n).1 h))]
    rfl

end Sys2Proof.Machine

/-! The boot sequence: what its two loads leave in memory (R216, R217, R231). -/

namespace Sys2Proof.Machine

/-- Memory after the boot sequence: the font from 0, then the ROM from 0x200. -/
def bootMemory (c : Config) (rom : List Byte) : Memory :=
  (Memory.writeBytes [] 0 c.fontTable.toList).writeBytes progBase rom

theorem boot_of_fits (c : Config) {rom : List Byte} (h : rom.length ≤ 3584) :
    boot c rom = .next { State.create c with mem := bootMemory c rom, pc := BitVec.ofNat 16 progBase } := by
  have hfits : ¬ memSize < progBase + rom.length := by simp only [memSize, progBase]; omega
  rw [boot, loadBytes, if_neg hfits]
  rfl

theorem read_bootMemory (c : Config) {rom : List Byte} (h : rom.length ≤ 3584) (a : Nat) :
    (bootMemory c rom).read a =
      if hrom : 0x200 ≤ a ∧ a < 0x200 + rom.length then rom[a - 0x200]
      else if hfont : a < 80 then c.fontTable[a] else 0 := by
  have hfont : 0 + c.fontTable.toList.length ≤ memSize := by rw [Vector.length_toList]; decide
  have hrom : progBase + rom.length ≤ memSize := by simp only [memSize, progBase]; omega
  have hwf : Memory.wf [] = true := rfl
  rw [bootMemory, Memory.read_writeBytes (Memory.wf_writeBytes hwf hfont) hrom, Memory.read_writeBytes hwf hfont]
  simp

/-- Settles O50: what the two loads leave at an address, by its range. -/
theorem bootLoadsFontAndRom : Obligations.BootLoadsFontAndRom := by
  unfold Obligations.BootLoadsFontAndRom
  intro c rom h
  refine ⟨_, boot_of_fits c h, fun a ha => ?_, fun a hlo hhi => ?_, fun k hk => ?_, fun a ha => ?_, rfl, rfl⟩
  · rw [read_bootMemory c h, dif_neg (by omega), dif_pos ha]
  · rw [read_bootMemory c h, dif_neg (by omega), dif_neg (by omega)]
  · rw [read_bootMemory c h, dif_pos (by omega)]
    simp
  · rw [read_bootMemory c h, dif_neg (by omega), dif_neg (by omega)]

end Sys2Proof.Machine

/-! Fetch and data accesses (R51 to R57): when a step fetches, the bounds check of an instruction's own data, and a store over the
word that is fetched next. -/

namespace Sys2Proof.Machine

/-! ### Fetch -/

/-- Two bytes decode as the word they make, the first the high byte (R51, R82). -/
theorem decode_pair_eq_ok_iff {strict : Bool} {hi lo : Byte} {i : Instr} :
    decode strict [hi, lo] = .ok (i, []) ↔ decodeWord strict (bigEndian hi lo) = .ok i := by
  rw [decode]
  cases decodeWord strict (bigEndian hi lo) <;> simp

/-- Settles O8: the two bytes at `pc` decode as the fetched word, and the step is the executor's on the advanced state. -/
theorem stepRunsTheDecodedInstruction : Obligations.StepRunsTheDecodedInstruction := by
  unfold Obligations.StepRunsTheDecodedInstruction
  intro s i hrun hpc hdecode
  exact step_eq_exec hrun ⟨hpc, decode_pair_eq_ok_iff.1 hdecode⟩

/-- Past memory a step takes the fetch fault (R203). -/
theorem step_of_fetch_past_memory {s : State} (hrun : s.halted = false) (hpc : memSize ≤ s.pc.toNat + 1) :
    step s = .next (haltWith (.fetchOutOfRange s.pc) s) := by
  have hfetch : canFetch s = false := Bool.eq_false_iff.2 fun h => absurd ((canFetch_iff s).1 h) (Nat.not_lt.2 hpc)
  simp [step, hrun, hfetch]

/-- No instruction takes the fetch fault: a running block that it halts records another cause (R202). -/
theorem exec_fault_ne_fetchOutOfRange {i : Instr} {s t : State} (hrun : s.halted = false) (h : exec i s = .next t)
    (ht : t.halted = true) (a : Word) : t.fault ≠ some (.fetchOutOfRange a) := by
  obtain ⟨-, c, -, hc, he⟩ | ⟨u, he, hu, -⟩ | ⟨-, -, he⟩ := exec_cases i s
  · rw [he, raise_eq] at h
    cases h
    exact fun hfault => hc _ a (Option.some.inj hfault)
  · rw [he] at h
    cases h
    rw [hu, hrun] at ht
    cases ht
  · rw [he] at h
    cases h

/-- Settles O9: of what a step of a running block can be, only a fetch past memory takes the fetch fault. -/
theorem fetchFaultsPastMemoryAndHaltedBlocksStay : Obligations.FetchFaultsPastMemoryAndHaltedBlocksStay := by
  unfold Obligations.FetchFaultsPastMemoryAndHaltedBlocksStay
  intro s
  refine ⟨step_of_fetch_past_memory, fun hrun hpc t a h ht => ?_, step_of_halted⟩
  obtain ⟨hpast, -⟩ | ⟨-, -, he⟩ | ⟨i, -, he⟩ := step_cases hrun
  · exact absurd hpc (Nat.not_lt.2 hpast)
  · rw [he] at h
    cases h
    simp
  · exact exec_fault_ne_fetchOutOfRange (s := advance s) hrun (he ▸ h) ht a

/-! ### The bounds check of a data access -/

/-- An access to no byte has no bad address. -/
theorem not_lowestBadAddress_zero (base addr : Nat) : ¬ LowestBadAddress base 0 addr := by
  rintro ⟨hlo, hhi, -⟩
  omega

theorem Effect.checked_of_lowestBadAddress {s : State} {n addr : Nat} (e : Effect)
    (h : LowestBadAddress s.index.toNat n addr) : Effect.checked s n e = .raises (.memOutOfRange addr) := by
  rw [Effect.checked, badAddress_eq_some_iff.2 h]

/-- The effect of an instruction with a bad data address is the fault that names the lowest (R205). -/
theorem effect_of_lowestBadAddress {i : Instr} {s : State} {addr : Nat}
    (h : LowestBadAddress s.index.toNat (dataBytes i) addr) : effect i s = .raises (.memOutOfRange addr) := by
  cases i
  case drw | ldB | ldRegs => exact Effect.checked_of_lowestBadAddress _ h
  case stRegs x =>
    have hlen : (s.firstRegs (x.toNat + 1)).length = dataBytes (.stRegs x) := State.length_firstRegs s _
    exact Effect.checked_of_lowestBadAddress _ (hlen ▸ h)
  all_goals exact absurd h (not_lowestBadAddress_zero _ _)

/-- Settles O46: the effect is the fault alone, and a fault that is raised writes nothing but `pc` and the fault state. -/
theorem dataAccessesPastMemoryRaiseTheLowestAddress : Obligations.DataAccessesPastMemoryRaiseTheLowestAddress := by
  unfold Obligations.DataAccessesPastMemoryRaiseTheLowestAddress
  intro i s addr h
  rw [Raises, exec_eq_apply, effect_of_lowestBadAddress h]
  rfl

/-! ### A store over the word that is fetched next -/

/-- Memory after FX55 (R184). -/
def State.dumpedMemory (s : State) (x : RegNum) : Memory := s.mem.writeBytes s.index.toNat (s.firstRegs (x.toNat + 1))

theorem exec_stRegs_of_fits {s : State} {x : RegNum} (h : s.index.toNat + x.toNat + 1 ≤ memSize) :
    exec (.stRegs x) s = .next { s with mem := s.dumpedMemory x } :=
  storeAtIndex_fits (.inr (by rw [State.length_firstRegs]; exact h))

/-- After FX55 the byte `k` past `I` is `V[k]`, for `k` up to `X`. -/
theorem State.read_dumpedMemory {s : State} {x : RegNum} (hwf : s.mem.wf = true)
    (hfits : s.index.toNat + x.toNat + 1 ≤ memSize) {k : Nat} (hk : k ≤ x.toNat) :
    (s.dumpedMemory x).read (s.index.toNat + k) = s.readV (BitVec.ofNat 4 k) := by
  have hlen : s.index.toNat + (s.firstRegs (x.toNat + 1)).length ≤ memSize := by rw [State.length_firstRegs]; exact hfits
  rw [State.dumpedMemory, Memory.read_writeBytes hwf hlen, dif_pos (by rw [State.length_firstRegs]; omega),
    State.getElem_firstRegs, Nat.add_sub_cancel_left]

/-- With `I` at `pc`, FX55 puts `V0` and `V1` where the next fetch reads (R51, R235). -/
theorem fetchWord_dumpedMemory {s : State} {x : RegNum} (hwf : s.mem.wf = true) (hx : 1 ≤ x.toNat)
    (hindex : s.index = s.pc) (hfits : s.index.toNat + x.toNat + 1 ≤ memSize) :
    fetchWord { s with mem := s.dumpedMemory x } = bigEndian (s.readV 0) (s.readV 1) := by
  have hhi := State.read_dumpedMemory hwf hfits (Nat.zero_le x.toNat)
  have hlo := State.read_dumpedMemory hwf hfits hx
  rw [hindex] at hhi hlo
  exact congrArg₂ bigEndian hhi hlo

/-- Settles O48: the store leaves `pc`, the parameters and `halted` as they were, so the next step fetches the stored word. -/
theorem storedInstructionIsTheNextOneFetched : Obligations.StoredInstructionIsTheNextOneFetched := by
  unfold Obligations.StoredInstructionIsTheNextOneFetched
  intro s x hwf hx hindex hfits
  refine ⟨_, exec_stRegs_of_fits hfits, ?_, fun i hrun hdecode => step_eq_exec hrun ⟨?_, hdecode⟩⟩
  · rw [fetchWord_dumpedMemory hwf hx hindex hfits, bigEndian_toNat, Nat.mul_comm]
  · change s.pc.toNat + 1 < memSize
    rw [← hindex]
    omega

end Sys2Proof.Machine

/-! The opcode map (R75) and the decoder (R82) agree: the row of an instruction, what a word that decodes is, which words decode,
and how many there are. -/

namespace Sys2Proof

open Machine

/-! ### Encoding, then decoding -/

open Laws in
/-- Every constructor's word decodes back to it: the lemmas of Laws/PerInstr.lean together. -/
theorem roundTrip_statement : ∀ i : Instr, RoundTrip.Statement i
  | .cls => RoundTrip.cls
  | .ret => RoundTrip.ret
  | .jp nnn => RoundTrip.jp nnn
  | .call nnn => RoundTrip.call nnn
  | .seImm x nn => RoundTrip.seImm x nn
  | .sneImm x nn => RoundTrip.sneImm x nn
  | .seReg x y => RoundTrip.seReg x y
  | .ldImm x nn => RoundTrip.ldImm x nn
  | .addImm x nn => RoundTrip.addImm x nn
  | .ldReg x y => RoundTrip.ldReg x y
  | .orReg x y => RoundTrip.orReg x y
  | .andReg x y => RoundTrip.andReg x y
  | .xorReg x y => RoundTrip.xorReg x y
  | .addReg x y => RoundTrip.addReg x y
  | .sub x y => RoundTrip.sub x y
  | .shr x y => RoundTrip.shr x y
  | .subn x y => RoundTrip.subn x y
  | .shl x y => RoundTrip.shl x y
  | .sneReg x y => RoundTrip.sneReg x y
  | .ldI nnn => RoundTrip.ldI nnn
  | .jpV0 nnn => RoundTrip.jpV0 nnn
  | .rnd x nn => RoundTrip.rnd x nn
  | .drw x y n => RoundTrip.drw x y n
  | .skp x => RoundTrip.skp x
  | .sknp x => RoundTrip.sknp x
  | .ldVxDt x => RoundTrip.ldVxDt x
  | .ldVxK x => RoundTrip.ldVxK x
  | .ldDt x => RoundTrip.ldDt x
  | .ldSt x => RoundTrip.ldSt x
  | .addI x => RoundTrip.addI x
  | .ldF x => RoundTrip.ldF x
  | .ldB x => RoundTrip.ldB x
  | .stRegs x => RoundTrip.stRegs x
  | .ldRegs x => RoundTrip.ldRegs x

/-- The word of a well-formed instruction decodes to it. -/
theorem decodeWord_encode {i : Instr} (hwf : i.wellFormed = true) (strict : Bool) :
    decodeWord strict (encode i) = .ok i :=
  roundTrip_statement i hwf strict

/-- Settles O1: the bytes decode as the word, and the word decodes back, constructor by constructor. -/
theorem decodingAnEncodedInstructionGivesItBack : Obligations.DecodingAnEncodedInstructionGivesItBack := by
  unfold Obligations.DecodingAnEncodedInstructionGivesItBack
  intro i strict rest hwf
  rw [encodeBytes, decode_wordBytes, decodeWord_encode hwf]

/-- Settles O7: the decoder evaluates each word. -/
theorem sampleWordsDecodeAsDocumented : Obligations.SampleWordsDecodeAsDocumented := by
  unfold Obligations.SampleWordsDecodeAsDocumented
  decide

/-! ### The row of an instruction -/

/-- The forms of the rows of R75, by the bits that are fixed in a word. -/
inductive WordForm where
  /-- The whole word, X a don't-care nibble: CLS and RET (R76, R80). -/
  | word
  /-- F and N, N a don't-care nibble: the compares of families 0x5 and 0x9 (R80). -/
  | compare
  /-- F alone. -/
  | family
  /-- F and N: family 0x8 (R77). -/
  | lowNibble
  /-- F and NN: families 0xE and 0xF (R78, R79). -/
  | lowByte

/-- The fixed bits under a value of `StrictDecode`. -/
def WordForm.fixedBits : WordForm → Bool → Word
  | .word, true => 0xFFFF
  | .word, false => 0xF0FF
  | .compare, true => 0xF00F
  | .compare, false => 0xF000
  | .family, _ => 0xF000
  | .lowNibble, _ => 0xF00F
  | .lowByte, _ => 0xF0FF

/-- The bits that are fixed under `StrictDecode = true` only (R80). -/
def WordForm.dontCare (f : WordForm) : Word := f.fixedBits true ^^^ f.fixedBits false

/-- The form of an instruction's row. -/
def Instr.form : Instr → WordForm
  | .cls | .ret => .word
  | .seReg _ _ | .sneReg _ _ => .compare
  | .jp _ | .call _ | .ldI _ | .jpV0 _ => .family
  | .seImm _ _ | .sneImm _ _ | .ldImm _ _ | .addImm _ _ | .rnd _ _ | .drw _ _ _ => .family
  | .ldReg _ _ | .orReg _ _ | .andReg _ _ | .xorReg _ _ => .lowNibble
  | .addReg _ _ | .sub _ _ | .shr _ _ | .subn _ _ | .shl _ _ => .lowNibble
  | .skp _ | .sknp _ | .ldVxDt _ | .ldVxK _ | .ldDt _ | .ldSt _ => .lowByte
  | .addI _ | .ldF _ | .ldB _ | .stRegs _ | .ldRegs _ => .lowByte

/-- The row of R75 for an instruction: its word with the fields zeroed, under the masks of its form. -/
def Instr.row (i : Instr) : OpcodeRow :=
  ⟨i.form.fixedBits true, i.form.fixedBits false, encode i &&& i.form.fixedBits true⟩

theorem maskUnder_row (i : Instr) (strict : Bool) : i.row.maskUnder strict = i.form.fixedBits strict := by
  cases strict <;> rfl

theorem WordForm.fixedBits_and (f : WordForm) (strict : Bool) :
    f.fixedBits true &&& f.fixedBits strict = f.fixedBits strict := by
  cases f <;> cases strict <;> rfl

theorem WordForm.not_dontCare_and (f : WordForm) : ~~~f.dontCare &&& f.fixedBits true = f.fixedBits false := by
  cases f <;> rfl

/-! ### A word under a mask of whole nibbles -/

theorem and_wordXYN (w : Word) (g u v m : BitVec 4) :
    w &&& wordXYN g u v m = wordXYN (fieldF w &&& g) (fieldX w &&& u) (fieldY w &&& v) (fieldN w &&& m) := by
  have h : ∀ f x y n, wordXYN f x y n &&& wordXYN g u v m = wordXYN (f &&& g) (x &&& u) (y &&& v) (n &&& m) := by
    intro f x y n
    refine BitVec.and_append.trans ?_
    rw [BitVec.and_append, BitVec.and_append]
    rfl
  rw [← h, wordXYN_fields]

theorem and_wordXNN (w : Word) (g u : BitVec 4) (l : Byte) :
    w &&& wordXNN g u l = wordXNN (fieldF w &&& g) (fieldX w &&& u) (fieldNN w &&& l) := by
  have h : ∀ f x k, wordXNN f x k &&& wordXNN g u l = wordXNN (f &&& g) (x &&& u) (k &&& l) := by
    intro f x k
    refine BitVec.and_append.trans ?_
    rw [BitVec.and_append]
    rfl
  rw [← h, wordXNN_fields]

theorem and_F000 (w : Word) : w &&& 0xF000 = wordXYN (fieldF w) 0#4 0#4 0#4 :=
  (and_wordXYN w (.allOnes 4) 0#4 0#4 0#4).trans (by simp only [BitVec.and_allOnes, BitVec.and_zero])

theorem and_F00F (w : Word) : w &&& 0xF00F = wordXYN (fieldF w) 0#4 0#4 (fieldN w) :=
  (and_wordXYN w (.allOnes 4) 0#4 0#4 (.allOnes 4)).trans (by simp only [BitVec.and_allOnes, BitVec.and_zero])

theorem and_FFF0 (w : Word) : w &&& 0xFFF0 = wordXYN (fieldF w) (fieldX w) (fieldY w) 0#4 :=
  (and_wordXYN w (.allOnes 4) (.allOnes 4) (.allOnes 4) 0#4).trans (by simp only [BitVec.and_allOnes, BitVec.and_zero])

theorem and_F0FF (w : Word) : w &&& 0xF0FF = wordXNN (fieldF w) 0#4 (fieldNN w) :=
  (and_wordXNN w (.allOnes 4) 0#4 (.allOnes 8)).trans (by simp only [BitVec.and_allOnes, BitVec.and_zero])

/-- Every instruction's row is one of the 34. -/
theorem row_mem_opcodeTable (i : Instr) : i.row ∈ opcodeTable := by
  cases i
  case cls | ret => decide
  all_goals
    simp only [Instr.row, Instr.form, WordForm.fixedBits, encode, and_F000, and_F00F, and_F0FF, fieldF_wordNNN,
      fieldF_wordXNN, fieldNN_wordXNN, fieldF_wordXYN, fieldN_wordXYN]
    decide

/-- One instruction of each row, in the order of R75. -/
def rowSamples : List Instr :=
  [.cls, .ret, .jp 0, .call 0, .seImm 0 0, .sneImm 0 0, .seReg 0 0, .ldImm 0 0, .addImm 0 0,
   .ldReg 0 0, .orReg 0 0, .andReg 0 0, .xorReg 0 0, .addReg 0 0, .sub 0 0, .shr 0 0, .subn 0 0, .shl 0 0,
   .sneReg 0 0, .ldI 0, .jpV0 0, .rnd 0 0, .drw 0 0 0, .skp 0, .sknp 0,
   .ldVxDt 0, .ldVxK 0, .ldDt 0, .ldSt 0, .addI 0, .ldF 0, .ldB 0, .stRegs 0, .ldRegs 0]

theorem opcodeTable_eq_map_row : opcodeTable = rowSamples.map Instr.row := by decide

theorem exists_row_of_mem_opcodeTable {r : OpcodeRow} (hr : r ∈ opcodeTable) : ∃ i : Instr, i.row = r := by
  rw [opcodeTable_eq_map_row] at hr
  obtain ⟨i, -, hi⟩ := List.mem_map.1 hr
  exact ⟨i, hi⟩

/-! ### What a word that decodes is made of -/

theorem eq_ofNat_of_toNat_eq {n k : Nat} {x : BitVec n} (h : x.toNat = k) : x = BitVec.ofNat n k := by
  rw [← h, BitVec.ofNat_toNat, BitVec.setWidth_eq]

theorem wordXYN_of_fieldF {f : BitVec 4} {w : Word} (h : fieldF w = f) :
    wordXYN f (fieldX w) (fieldY w) (fieldN w) = w := by rw [← h, wordXYN_fields]

theorem wordXNN_of_fieldF {f : BitVec 4} {w : Word} (h : fieldF w = f) : wordXNN f (fieldX w) (fieldNN w) = w := by
  rw [← h, wordXNN_fields]

theorem wordNNN_of_fieldF {f : BitVec 4} {w : Word} (h : fieldF w = f) : wordNNN f (fieldNNN w) = w := by
  rw [← h, wordNNN_fields]

theorem decodeFamily8_ok {w : Word} {i : Instr} (h : decodeFamily8 w = .ok i) :
    i.form = .lowNibble ∧ encode i = wordXYN 0x8 (fieldX w) (fieldY w) (fieldN w) := by
  unfold decodeFamily8 at h
  split at h
  case h_10 => cases h
  all_goals
    rename_i hn
    cases h
    exact ⟨rfl, by rw [eq_ofNat_of_toNat_eq hn]; rfl⟩

theorem decodeFamilyE_ok {w : Word} {i : Instr} (h : decodeFamilyE w = .ok i) :
    i.form = .lowByte ∧ encode i = wordXNN 0xE (fieldX w) (fieldNN w) := by
  unfold decodeFamilyE at h
  split at h
  case h_3 => cases h
  all_goals
    rename_i hn
    cases h
    exact ⟨rfl, by rw [eq_ofNat_of_toNat_eq hn]; rfl⟩

theorem decodeFamilyF_ok {w : Word} {i : Instr} (h : decodeFamilyF w = .ok i) :
    i.form = .lowByte ∧ encode i = wordXNN 0xF (fieldX w) (fieldNN w) := by
  unfold decodeFamilyF at h
  split at h
  case h_10 => cases h
  all_goals
    rename_i hn
    cases h
    exact ⟨rfl, by rw [eq_ofNat_of_toNat_eq hn]; rfl⟩

/-- The word is `i`'s, but for don't-care bits, which must be clear under `StrictDecode` (R80). -/
def IsWordOf (strict : Bool) (i : Instr) (w : Word) : Prop :=
  encode i = w &&& ~~~i.form.dontCare ∧ (strict = true → encode i = w)

/-- A form whose masks agree has no don't-care bits. -/
theorem IsWordOf.of_eq {strict : Bool} {i : Instr} {w : Word} {f : WordForm} (hf : i.form = f)
    (hmask : f.fixedBits true = f.fixedBits false) (h : encode i = w) : IsWordOf strict i w :=
  ⟨by rw [h, hf, WordForm.dontCare, hmask, BitVec.xor_self, BitVec.not_zero, BitVec.and_allOnes], fun _ => h⟩

theorem isWordOf_of_decodeFamily0 {strict : Bool} {w : Word} {i : Instr} (hF : fieldF w = 0x0)
    (h : decodeFamily0 strict w = .ok i) : IsWordOf strict i w := by
  obtain ⟨hX, hi⟩ := decodeFamily0_ok h
  have hlax := and_F0FF w
  have hstrict := wordXNN_fields w
  obtain ⟨hNN, rfl⟩ | ⟨hNN, rfl⟩ := hi
  all_goals
    rw [hF, hNN] at hlax hstrict
    exact ⟨hlax.symm, fun hs => by rw [hX hs] at hstrict; exact hstrict⟩

theorem isWordOf_of_decodeCompare {strict : Bool} {w : Word} {i j : Instr} (h : decodeCompare strict w i = .ok j)
    (hf : i.form = .compare) (hi : encode i = wordXYN (fieldF w) (fieldX w) (fieldY w) 0x0) :
    IsWordOf strict j w := by
  obtain ⟨hN, rfl⟩ := decodeCompare_ok h
  refine ⟨?_, fun hs => ?_⟩
  · rw [hi, hf]
    exact (and_FFF0 w).symm
  · rw [hi, ← hN hs, wordXYN_fields]

/-- A word decodes only to an instruction it is the word of. -/
theorem isWordOf_of_decodeWord {strict : Bool} {w : Word} {i : Instr} (h : decodeWord strict w = .ok i) :
    IsWordOf strict i w := by
  unfold decodeWord at h
  split at h
  case h_17 => cases h
  all_goals
    rename_i hF
    replace hF := eq_ofNat_of_toNat_eq hF
  case h_1 => exact isWordOf_of_decodeFamily0 hF h
  case h_6 | h_10 => exact isWordOf_of_decodeCompare h rfl (by rw [hF]; rfl)
  case h_9 =>
    obtain ⟨hf, hi⟩ := decodeFamily8_ok h
    exact .of_eq hf rfl (hi.trans (wordXYN_of_fieldF hF))
  case h_15 =>
    obtain ⟨hf, hi⟩ := decodeFamilyE_ok h
    exact .of_eq hf rfl (hi.trans (wordXNN_of_fieldF hF))
  case h_16 =>
    obtain ⟨hf, hi⟩ := decodeFamilyF_ok h
    exact .of_eq hf rfl (hi.trans (wordXNN_of_fieldF hF))
  case h_14 =>
    cases h
    refine .of_eq rfl rfl ?_
    rw [encode, BitVec.ofNat_toNat, BitVec.setWidth_eq]
    exact wordXYN_of_fieldF hF
  case h_2 | h_3 | h_11 | h_12 =>
    cases h
    exact .of_eq rfl rfl (wordNNN_of_fieldF hF)
  all_goals
    cases h
    exact .of_eq rfl rfl (wordXNN_of_fieldF hF)

/-- Settles O2: a strictly decoded word has every don't-care bit clear, so it is the instruction's own word. -/
theorem strictDecodingIsInvertedByEncoding : Obligations.StrictDecodingIsInvertedByEncoding := by
  unfold Obligations.StrictDecodingIsInvertedByEncoding
  intro w i h
  exact ⟨wellFormed_of_decodeWord h, (isWordOf_of_decodeWord h).2 rfl⟩

/-! ### Which words decode -/

/-- A word that decodes matches the row of the instruction. -/
theorem row_matches_of_decodeWord {strict : Bool} {w : Word} {i : Instr} (h : decodeWord strict w = .ok i) :
    w &&& i.row.maskUnder strict = i.row.matchBits := by
  obtain ⟨hlax, hstrict⟩ := isWordOf_of_decodeWord h
  change _ = encode i &&& i.form.fixedBits true
  rw [maskUnder_row]
  cases strict with
  | true => rw [hstrict rfl]
  | false => rw [hlax, BitVec.and_assoc, WordForm.not_dontCare_and]

/-- A word that matches an instruction's row has the bits of the instruction's word under the mask in force, so every field
that the mask fixes is the instruction's. -/
theorem extractLsb'_of_row_matches {strict : Bool} {w : Word} {i : Instr} {start len : Nat}
    (h : w &&& i.row.maskUnder strict = i.row.matchBits)
    (hmask : (i.form.fixedBits strict).extractLsb' start len = BitVec.allOnes len) :
    w.extractLsb' start len = (encode i).extractLsb' start len := by
  rw [maskUnder_row] at h
  have hbits : w &&& i.form.fixedBits strict = encode i &&& i.form.fixedBits strict := calc
    _ = w &&& i.form.fixedBits strict &&& i.form.fixedBits strict := by rw [BitVec.and_assoc, BitVec.and_self]
    _ = encode i &&& i.form.fixedBits true &&& i.form.fixedBits strict := by rw [h]; rfl
    _ = _ := by rw [BitVec.and_assoc, WordForm.fixedBits_and]
  have hfield := congrArg (BitVec.extractLsb' start len) hbits
  rwa [BitVec.extractLsb'_and, BitVec.extractLsb'_and, hmask, BitVec.and_allOnes, BitVec.and_allOnes] at hfield

theorem WordForm.fieldF_fixedBits (f : WordForm) (strict : Bool) : fieldF (f.fixedBits strict) = BitVec.allOnes 4 := by
  cases f <;> cases strict <;> rfl

theorem WordForm.fieldNN_fixedBits {f : WordForm} (hf : f = .word ∨ f = .lowByte) (strict : Bool) :
    fieldNN (f.fixedBits strict) = BitVec.allOnes 8 := by
  obtain rfl | rfl := hf <;> cases strict <;> rfl

theorem WordForm.fieldN_fixedBits {f : WordForm} {strict : Bool} (hf : f = .lowNibble ∨ f = .compare ∧ strict = true) :
    fieldN (f.fixedBits strict) = BitVec.allOnes 4 := by
  obtain rfl | ⟨rfl, rfl⟩ := hf
  · cases strict <;> rfl
  · rfl

/-- A word that matches the row of an instruction decodes to an instruction of that form. -/
theorem decodeWord_of_row_matches {strict : Bool} {w : Word} {i : Instr}
    (h : w &&& i.row.maskUnder strict = i.row.matchBits) :
    ∃ j, decodeWord strict w = .ok j ∧ j.form = i.form := by
  have hF : fieldF w = fieldF (encode i) := extractLsb'_of_row_matches h (i.form.fieldF_fixedBits strict)
  have hNN (hf : i.form = .word ∨ i.form = .lowByte) : fieldNN w = fieldNN (encode i) :=
    extractLsb'_of_row_matches h (WordForm.fieldNN_fixedBits hf strict)
  have hN (hf : i.form = .lowNibble ∨ i.form = .compare ∧ strict = true) : fieldN w = fieldN (encode i) :=
    extractLsb'_of_row_matches h (WordForm.fieldN_fixedBits hf)
  cases i
  case cls | ret =>
    have hX : ¬ (strict = true ∧ fieldX w ≠ 0) := by
      rintro ⟨rfl, hX⟩
      exact hX (extractLsb'_of_row_matches h rfl)
    rw [decodeWord, hF, encode, decodeFamily0, if_neg hX, hNN (.inl rfl)]
    exact ⟨_, rfl, rfl⟩
  case seReg | sneReg =>
    have hN0 : ¬ (strict = true ∧ fieldN w ≠ 0) := by
      rintro ⟨hs, hne⟩
      exact hne ((hN (.inr ⟨rfl, hs⟩)).trans (fieldN_wordXYN ..))
    rw [decodeWord, hF, encode, fieldF_wordXYN]
    exact ⟨_, if_neg hN0, rfl⟩
  case ldReg | orReg | andReg | xorReg | addReg | sub | shr | subn | shl =>
    rw [decodeWord, hF, encode, fieldF_wordXYN]
    change ∃ j, decodeFamily8 w = .ok j ∧ _
    rw [decodeFamily8, hN (.inl rfl), encode, fieldN_wordXYN]
    exact ⟨_, rfl, rfl⟩
  case skp | sknp =>
    rw [decodeWord, hF, encode, fieldF_wordXNN]
    change ∃ j, decodeFamilyE w = .ok j ∧ _
    rw [decodeFamilyE, hNN (.inr rfl), encode, fieldNN_wordXNN]
    exact ⟨_, rfl, rfl⟩
  case ldVxDt | ldVxK | ldDt | ldSt | addI | ldF | ldB | stRegs | ldRegs =>
    rw [decodeWord, hF, encode, fieldF_wordXNN]
    change ∃ j, decodeFamilyF w = .ok j ∧ _
    rw [decodeFamilyF, hNN (.inr rfl), encode, fieldNN_wordXNN]
    exact ⟨_, rfl, rfl⟩
  case drw =>
    rw [decodeWord, hF, encode, fieldF_wordXYN]
    exact ⟨_, rfl, rfl⟩
  case jp | call | ldI | jpV0 =>
    rw [decodeWord, hF, encode, fieldF_wordNNN]
    exact ⟨_, rfl, rfl⟩
  all_goals
    rw [decodeWord, hF, encode, fieldF_wordXNN]
    exact ⟨_, rfl, rfl⟩

/-- A word matches a row of the opcode map exactly when it decodes to an instruction of that row. -/
theorem matches_iff_decodeWord {r : OpcodeRow} (hr : r ∈ opcodeTable) (strict : Bool) (w : Word) :
    w &&& r.maskUnder strict = r.matchBits ↔ ∃ i : Instr, decodeWord strict w = .ok i ∧ i.row = r := by
  constructor
  · intro h
    obtain ⟨i, rfl⟩ := exists_row_of_mem_opcodeTable hr
    obtain ⟨j, hj, hform⟩ := decodeWord_of_row_matches h
    have hbits : j.row.matchBits = i.row.matchBits := by
      rw [← row_matches_of_decodeWord hj, ← h, maskUnder_row, maskUnder_row, hform]
    refine ⟨j, hj, ?_⟩
    have hrow (k : Instr) : k.row = ⟨k.form.fixedBits true, k.form.fixedBits false, k.row.matchBits⟩ := rfl
    rw [hrow j, hrow i, hform, hbits]
  · rintro ⟨i, hi, rfl⟩
    exact row_matches_of_decodeWord hi

/-- A word decodes exactly when it is legal, that is when it matches a row (R81). -/
theorem exists_decodeWord_iff (strict : Bool) (w : Word) :
    (∃ i, decodeWord strict w = .ok i) ↔ ∃ r ∈ opcodeTable, w &&& r.maskUnder strict = r.matchBits := by
  constructor
  · rintro ⟨i, hi⟩
    exact ⟨i.row, row_mem_opcodeTable i, row_matches_of_decodeWord hi⟩
  · rintro ⟨r, hr, hw⟩
    obtain ⟨i, hi, -⟩ := (matches_iff_decodeWord hr strict w).1 hw
    exact ⟨i, hi⟩

/-- Settles O4: a running block that fetches in range and meets no legal word takes the decode fault. -/
theorem illegalWordsAreThoseThatMatchNoRow : Obligations.IllegalWordsAreThoseThatMatchNoRow := by
  unfold Obligations.IllegalWordsAreThoseThatMatchNoRow
  refine ⟨exists_decodeWord_iff, fun s hrun hpc hillegal => ?_⟩
  obtain ⟨hpast, -⟩ | ⟨-, -, hstep⟩ | ⟨i, ⟨-, hi⟩, -⟩ := step_cases hrun
  · exact absurd hpc (Nat.not_lt.2 hpast)
  · exact hstep
  · exact absurd ((exists_decodeWord_iff _ _).1 ⟨i, hi⟩) hillegal

/-- Settles O6: a word that matches two rows would decode to an instruction of each, and it decodes to one only. -/
theorem noWordMatchesTwoRows : Obligations.NoWordMatchesTwoRows := by
  unfold Obligations.NoWordMatchesTwoRows
  intro strict w j k hj hk hwj hwk
  obtain ⟨i, hi, hrow⟩ := (matches_iff_decodeWord (List.getElem_mem hj) strict w).1 (of_decide_eq_true hwj)
  obtain ⟨i', hi', hrow'⟩ := (matches_iff_decodeWord (List.getElem_mem hk) strict w).1 (of_decide_eq_true hwk)
  obtain rfl : i = i' := Except.ok.inj (hi.symm.trans hi')
  have hnodup : opcodeTable.Nodup := by decide
  exact (hnodup.getElem_inj_iff).1 (hrow.symm.trans hrow')

/-! ### Words with don't-care bits set -/

/-- The word of families 0x5 and 0x9 with any N, as a sum and from its nibbles. -/
theorem xyWord_eq_wordXYN {base : Nat} (f : BitVec 4) (hbase : base = f.toNat * 4096) (x y : RegNum) (n : BitVec 4) :
    xyWord (base + n.toNat) x y = wordXYN f x y n := by
  apply BitVec.eq_of_toNat_eq
  have hx := x.isLt
  have hy := y.isLt
  have hf := f.isLt
  have hn := n.isLt
  rw [wordXYN_toNat, xyWord, BitVec.toNat_ofNat, hbase]
  omega

/-- Settles O3: the cleared word is the encoding of what the word decodes to, and so decodes back to it strictly (O1). -/
theorem laxDecodingIgnoresTheDontCareBits : Obligations.LaxDecodingIgnoresTheDontCareBits := by
  unfold Obligations.LaxDecodingIgnoresTheDontCareBits
  refine ⟨fun r hr w hw => ?_, fun x y n => ?_⟩
  · obtain ⟨i, hi, rfl⟩ := (matches_iff_decodeWord hr false w).1 hw
    have hcleared : encode i = w &&& ~~~(i.row.mask ^^^ i.row.maskLax) := (isWordOf_of_decodeWord hi).1
    exact ⟨i, hi, hcleared ▸ decodeWord_encode (wellFormed_of_decodeWord hi) true, hcleared⟩
  · rw [xnnWord_eq_wordXNN (base := 0x0000) 0x0 rfl, xnnWord_eq_wordXNN (base := 0x0000) 0x0 rfl,
      xyWord_eq_wordXYN (base := 0x5000) 0x5 rfl, xyWord_eq_wordXYN (base := 0x9000) 0x9 rfl]
    simp [decodeWord, decodeFamily0, decodeCompare]

/-! ### How many words are legal -/

/-- The positions a mask leaves free. -/
def freeBits {n : Nat} (m : BitVec n) : Finset (Fin n) := {k | m[k] = false}

/-- A word has given fixed bits when each bit under the mask is as given. -/
theorem and_eq_iff_getElem {n : Nat} {w m b : BitVec n} (hb : b &&& m = b) :
    w &&& m = b ↔ ∀ k : Fin n, m[k] = true → w[k] = b[k] := by
  constructor
  · rintro rfl k hk
    change w[k.val] = (w &&& m)[k.val]
    rw [BitVec.getElem_and, show m[k.val] = true from hk, Bool.and_true]
  · intro h
    rw [← hb]
    ext k hk
    rw [BitVec.getElem_and, BitVec.getElem_and]
    cases hm : m[k] with
    | false => rw [Bool.and_false, Bool.and_false]
    | true => rw [show w[k] = b[k] from h ⟨k, hk⟩ hm]

/-- The values bit `k` may take in a word that has the bits of `b` under the mask. -/
def allowedBits {n : Nat} (m b : BitVec n) (k : Fin n) : Finset Bool := if m[k] = true then {b[k]} else Finset.univ

theorem mem_allowedBits {n : Nat} {m b : BitVec n} {k : Fin n} {v : Bool} :
    v ∈ allowedBits m b k ↔ (m[k] = true → v = b[k]) := by
  rw [allowedBits]
  split <;> simp [*]

/-- The words with given fixed bits: each free bit doubles their number. -/
theorem card_and_eq {n : Nat} {m b : BitVec n} (hb : b &&& m = b) :
    ({w | w &&& m = b} : Finset (BitVec n)).card = 2 ^ (freeBits m).card := by
  calc ({w | w &&& m = b} : Finset (BitVec n)).card
      = (Fintype.piFinset (allowedBits m b)).card := by
        refine Finset.card_nbij' (fun w k => w[k]) BitVec.ofFnLE ?_ ?_ ?_ ?_
        · exact fun w hw => by simpa [mem_allowedBits, and_eq_iff_getElem hb] using hw
        · exact fun f hf => by simpa [mem_allowedBits, and_eq_iff_getElem hb] using hf
        · exact fun w _ => BitVec.eq_of_getElem_eq fun k hk => BitVec.getElem_ofFnLE _ k hk
        · exact fun f _ => funext fun k => BitVec.getElem_ofFnLE f k k.isLt
    _ = ∏ k : Fin n, if m[k] = true then 1 else 2 := by
        rw [Fintype.card_piFinset]
        refine Finset.prod_congr rfl fun k _ => ?_
        rw [allowedBits]
        split <;> rfl
    _ = 2 ^ (freeBits m).card := by simp [Finset.prod_ite, freeBits]

/-- Counting the words over their numbers is counting the words. -/
theorem countP_range_two_pow {n : Nat} (p : BitVec n → Bool) :
    (List.range (2 ^ n)).countP (fun k => p (BitVec.ofNat n k)) = ({w | p w = true} : Finset (BitVec n)).card := by
  rw [List.countP_eq_length_filter, ← List.toFinset_card_of_nodup (List.nodup_range.filter _)]
  refine Finset.card_nbij' (BitVec.ofNat n) BitVec.toNat (fun k hk => ?_) (fun w hw => ?_) (fun k hk => ?_) (fun w _ => ?_)
  · have hk : k < 2 ^ n ∧ p (BitVec.ofNat n k) = true := by simpa using hk
    simpa using hk.2
  · simpa [w.isLt] using hw
  · have hk : k < 2 ^ n ∧ p (BitVec.ofNat n k) = true := by simpa using hk
    rw [BitVec.toNat_ofNat, Nat.mod_eq_of_lt hk.1]
  · rw [BitVec.ofNat_toNat, BitVec.setWidth_eq]

theorem decodes_eq_true_iff (strict : Bool) (w : Word) : decodes strict w = true ↔ ∃ i, decodeWord strict w = .ok i := by
  rw [decodes]
  cases decodeWord strict w <;> simp

/-- The legal words are counted row by row: no word is in two rows (O6), and a row has a word for each value of its free bits. -/
theorem countP_decodes (strict : Bool) :
    (List.range 65536).countP (fun n => decodes strict (BitVec.ofNat 16 n)) =
      (opcodeTable.map fun r => 2 ^ (freeBits (r.maskUnder strict)).card).sum := by
  have hfixed : ∀ r ∈ opcodeTable, r.matchBits &&& r.maskUnder strict = r.matchBits := by cases strict <;> decide
  have hunion : ({w | decodes strict w = true} : Finset Word) =
      Finset.univ.biUnion fun k : Fin opcodeTable.length =>
        {w | w &&& opcodeTable[k].maskUnder strict = opcodeTable[k].matchBits} := by
    ext w
    simp only [Finset.mem_filter, Finset.mem_univ, true_and, Finset.mem_biUnion]
    rw [decodes_eq_true_iff, exists_decodeWord_iff]
    constructor
    · rintro ⟨r, hr, hw⟩
      obtain ⟨k, hk, rfl⟩ := List.getElem_of_mem hr
      exact ⟨⟨k, hk⟩, hw⟩
    · rintro ⟨k, hw⟩
      exact ⟨_, List.getElem_mem k.isLt, hw⟩
  rw [show 65536 = 2 ^ 16 from rfl, countP_range_two_pow, hunion, Finset.card_biUnion, ← Fin.sum_univ_fun_getElem]
  · exact Finset.sum_congr rfl fun k _ => card_and_eq (hfixed _ (List.getElem_mem k.isLt))
  · intro j _ k _ hjk
    refine Finset.disjoint_filter.2 fun w _ hj hk => ?_
    exact hjk (Fin.ext (noWordMatchesTwoRows strict w j k j.isLt k.isLt (decide_eq_true hj) (decide_eq_true hk)))

/-- Settles O5: the sum over the 34 rows, under either mask. -/
theorem legalWordsAreCountedAsTheSpecSays : Obligations.LegalWordsAreCountedAsTheSpecSays := by
  unfold Obligations.LegalWordsAreCountedAsTheSpecSays
  rw [countP_decodes, countP_decodes]
  decide

end Sys2Proof

/-! Control transfer: the jumps, the skips, CALL and RET one at a time, and calls that return or nest (R100 to R113). -/

namespace Sys2Proof.Machine

/-! ### The words of the control instructions -/

theorem encodes_encode {i : Instr} (hwf : i.wellFormed = true) : Encodes (encode i) i := decodeWord_encode hwf

/-- The word of a family with its address, as a sum and from its nibbles. -/
theorem nnnWord_eq_wordNNN {base : Nat} (f : BitVec 4) (hbase : base = f.toNat * 4096) {nnn : Word}
    (h : nnn.toNat < 0x1000) : nnnWord base nnn = wordNNN f nnn := by
  apply BitVec.eq_of_toNat_eq
  have hf := f.isLt
  rw [wordNNN_toNat f h, nnnWord, BitVec.toNat_ofNat, hbase]
  omega

/-- The word of families 0x5 and 0x9 with N zero, as the encoder builds it. -/
theorem xyWord_eq_wordXYN_zero {base : Nat} (f : BitVec 4) (hbase : base = f.toNat * 4096) (x y : RegNum) :
    xyWord base x y = wordXYN f x y 0 :=
  xyWord_eq_wordXYN f hbase x y 0

theorem encodes_jp {nnn : Word} (h : nnn.toNat < 0x1000) : Encodes (nnnWord 0x1000 nnn) (.jp nnn) := by
  rw [nnnWord_eq_wordNNN (base := 0x1000) 0x1 rfl h]
  exact encodes_encode (i := .jp nnn) (decide_eq_true h)

theorem encodes_call {nnn : Word} (h : nnn.toNat < 0x1000) : Encodes (nnnWord 0x2000 nnn) (.call nnn) := by
  rw [nnnWord_eq_wordNNN (base := 0x2000) 0x2 rfl h]
  exact encodes_encode (i := .call nnn) (decide_eq_true h)

theorem encodes_jpV0 {nnn : Word} (h : nnn.toNat < 0x1000) : Encodes (nnnWord 0xB000 nnn) (.jpV0 nnn) := by
  rw [nnnWord_eq_wordNNN (base := 0xB000) 0xB rfl h]
  exact encodes_encode (i := .jpV0 nnn) (decide_eq_true h)

theorem encodes_seImm (x : RegNum) (nn : Byte) : Encodes (xnnWord 0x3000 x nn) (.seImm x nn) := by
  rw [xnnWord_eq_wordXNN (base := 0x3000) 0x3 rfl]
  exact encodes_encode (i := .seImm x nn) rfl

theorem encodes_sneImm (x : RegNum) (nn : Byte) : Encodes (xnnWord 0x4000 x nn) (.sneImm x nn) := by
  rw [xnnWord_eq_wordXNN (base := 0x4000) 0x4 rfl]
  exact encodes_encode (i := .sneImm x nn) rfl

theorem encodes_seReg (x y : RegNum) : Encodes (xyWord 0x5000 x y) (.seReg x y) := by
  rw [xyWord_eq_wordXYN_zero (base := 0x5000) 0x5 rfl]
  exact encodes_encode (i := .seReg x y) rfl

theorem encodes_sneReg (x y : RegNum) : Encodes (xyWord 0x9000 x y) (.sneReg x y) := by
  rw [xyWord_eq_wordXYN_zero (base := 0x9000) 0x9 rfl]
  exact encodes_encode (i := .sneReg x y) rfl

/-! ### Jumps -/

/-- An instruction that leaves `halted` alone and `pc` past memory is followed by the fetch fault (R109, R203). -/
theorem nextFetchFaultsPastMemory_of_exec {i : Instr} {s t : State} (h : exec i s = .next t)
    (ht : t.halted = s.halted) : NextFetchFaultsPastMemory i s := by
  intro u hrun hu hpc
  rw [h] at hu
  cases hu
  exact step_of_fetch_past_memory (ht.trans hrun) hpc

/-- A byte and a 12-bit address add up without wrapping. -/
theorem toNat_setWidth_add (b : Byte) {nnn : Word} (h : nnn.toNat < 0x1000) :
    (b.setWidth 16 + nnn).toNat = b.toNat + nnn.toNat := by
  have hb := b.isLt
  rw [BitVec.toNat_add, BitVec.toNat_setWidth]
  omega

theorem State.offsetTarget_toNat_of_none {s : State} {nnn : Word} (h : nnn.toNat < 0x1000)
    (hmask : s.config.jumpOffsetMask = .none) : (s.offsetTarget nnn).toNat = (s.readV 0).toNat + nnn.toNat := by
  rw [State.offsetTarget, hmask]
  exact toNat_setWidth_add _ h

theorem State.offsetTarget_toNat_of_mask12 {s : State} {nnn : Word} (h : nnn.toNat < 0x1000)
    (hmask : s.config.jumpOffsetMask = .mask12) :
    (s.offsetTarget nnn).toNat = ((s.readV 0).toNat + nnn.toNat) % 4096 := by
  rw [State.offsetTarget, hmask]
  simp only [BitVec.toNat_and, toNat_setWidth_add _ h]
  exact Nat.and_two_pow_sub_one_eq_mod _ 12

/-- Settles O23: each jump's next state differs in `pc` only, so the block still runs at the next fetch. -/
theorem jumpsSetOnlyPc : Obligations.JumpsSetOnlyPc := by
  unfold Obligations.JumpsSetOnlyPc
  intro s nnn h
  exact ⟨encodes_jp h, rfl, encodes_jpV0 h, { s with pc := s.offsetTarget nnn }, rfl, rfl,
    State.offsetTarget_toNat_of_none h, State.offsetTarget_toNat_of_mask12 h,
    nextFetchFaultsPastMemory_of_exec rfl rfl, nextFetchFaultsPastMemory_of_exec rfl rfl⟩

/-! ### Skips -/

theorem skipIf_decide (s : State) (p : Prop) [Decidable p] :
    skipIf (decide p) s = { s with pc := if p then s.pc + 2 else s.pc } := by
  by_cases h : p <;> simp [skipIf, h]

theorem skipIf_decide_not (s : State) (p : Prop) [Decidable p] :
    skipIf (decide (¬p)) s = { s with pc := if p then s.pc else s.pc + 2 } := by
  rw [skipIf_decide, ite_not]

/-- Settles O28: SE skips on the comparison, SNE on its negation. -/
theorem skipsMovePcByTwoOnTheirCondition : Obligations.SkipsMovePcByTwoOnTheirCondition := by
  unfold Obligations.SkipsMovePcByTwoOnTheirCondition
  intro s x y nn
  exact ⟨⟨encodes_seImm x nn, congrArg _ (skipIf_decide s _)⟩, ⟨encodes_sneImm x nn, congrArg _ (skipIf_decide_not s _)⟩,
    ⟨encodes_seReg x y, congrArg _ (skipIf_decide s _)⟩, ⟨encodes_sneReg x y, congrArg _ (skipIf_decide_not s _)⟩⟩

/-! ### CALL -/

/-- The state after CALL with room on the stack (R103). -/
def State.afterCall (s : State) (nnn : Word) : State :=
  { s with pc := nnn, sp := s.sp + 1, stack := s.stack.setIfInBounds (s.sp.toNat + 1) s.linkAddress }

theorem exec_call_of_room {s : State} (h : s.sp.toNat < 15) (nnn : Word) :
    exec (.call nnn) s = .next (s.afterCall nnn) := by
  have hroom : ¬ stackDepth ≤ s.sp.toNat + 1 := by simp only [stackDepth]; omega
  simp only [exec, execCall, if_neg hroom, setStackEntry_eq]
  rfl

theorem raises_call_of_full {s : State} (h : 15 ≤ s.sp.toNat) (nnn : Word) :
    Raises (.call nnn) s (.stackOverflow (s.sp.toNat + 1)) := by
  have hfull : stackDepth ≤ s.sp.toNat + 1 := Nat.succ_le_succ h
  simp only [Raises, exec, execCall, if_pos hfull, raise_eq]

theorem State.toNat_sp_afterCall {s : State} (h : s.sp.toNat < 15) (nnn : Word) :
    (s.afterCall nnn).sp.toNat = s.sp.toNat + 1 := by
  simp only [State.afterCall]
  bv_omega

theorem State.getElem_stack_afterCall (s : State) (nnn : Word) {k : Nat} (hk : k < 16) :
    (s.afterCall nnn).stack[k] = if s.sp.toNat + 1 = k then s.linkAddress else s.stack[k] :=
  Vector.getElem_setIfInBounds hk

theorem State.getElem_stack_afterCall_of_ne (s : State) (nnn : Word) {k : Nat} (hk : k < 16) (hne : k ≠ s.sp.toNat + 1) :
    (s.afterCall nnn).stack[k] = s.stack[k] := by
  rw [State.getElem_stack_afterCall s nnn hk, if_neg hne.symm]

theorem State.getElem_stack_afterCall_link {s : State} (h : s.sp.toNat < 15) (nnn : Word) :
    (s.afterCall nnn).stack[s.sp.toNat + 1] = s.linkAddress := by
  rw [State.getElem_stack_afterCall s nnn (by omega), if_pos rfl]

theorem State.linkAddress_of_postFetch {s : State} (h : s.config.callLink = .postFetch) : s.linkAddress = s.pc := by
  rw [State.linkAddress, h]

theorem State.linkAddress_of_preFetch {s : State} (h : s.config.callLink = .preFetch) : s.linkAddress = s.pc - 2 := by
  rw [State.linkAddress, h]

/-- Settles O24: with room the link stands above the old top, and the other entries stay; without room the fault is raised. -/
theorem callPushesTheLinkOrOverflows : Obligations.CallPushesTheLinkOrOverflows := by
  unfold Obligations.CallPushesTheLinkOrOverflows
  intro s nnn hn
  refine ⟨encodes_call hn, fun h => ?_, fun h => raises_call_of_full h nnn⟩
  have hlink := State.getElem_stack_afterCall_link h nnn
  exact ⟨s.afterCall nnn, exec_call_of_room h nnn, rfl, State.toNat_sp_afterCall h nnn,
    fun hpost => hlink.trans (State.linkAddress_of_postFetch hpost),
    fun hpre => hlink.trans (State.linkAddress_of_preFetch hpre),
    fun k hk hne => State.getElem_stack_afterCall_of_ne s nnn hk hne, rfl⟩

/-! ### RET -/

/-- `sp` after RET: one lower, unless it is 0 (R101). -/
def State.loweredSp (s : State) : Byte := if s.sp = 0 then 0 else s.sp - 1

theorem State.toNat_loweredSp (s : State) : s.loweredSp.toNat = s.sp.toNat - 1 := by
  unfold State.loweredSp
  split
  case isTrue h => rw [h]; rfl
  case isFalse h => bv_omega

theorem exec_ret_of_le {s : State} (h : s.sp.toNat ≤ 15) :
    exec .ret s = .next { s with pc := s.stack[s.sp.toNat], sp := s.loweredSp } := by
  simp only [exec, execRet, stackEntry_of_lt s (Nat.lt_succ_of_le h)]
  rfl

/-- Settles O25: with `sp` in range the entry exists, and `pc` and `sp` are all that is written. -/
theorem returnPopsTheStackAndClampsAtZero : Obligations.ReturnPopsTheStackAndClampsAtZero := by
  unfold Obligations.ReturnPopsTheStackAndClampsAtZero
  exact ⟨encodes_encode (i := .ret) rfl, fun s h => ⟨_, exec_ret_of_le h, rfl, s.toNat_loweredSp, rfl, fun _ => rfl⟩⟩

/-! ### Calls that return and calls that nest -/

theorem State.loweredSp_afterCall {s : State} (h : s.sp.toNat < 15) (nnn : Word) : (s.afterCall nnn).loweredSp = s.sp := by
  apply BitVec.eq_of_toNat_eq
  rw [State.toNat_loweredSp, State.toNat_sp_afterCall h, Nat.add_sub_cancel]

/-- RET after CALL pops the link that CALL pushed (R101, R103). -/
theorem exec_ret_afterCall {s : State} (h : s.sp.toNat < 15) (nnn : Word) :
    exec .ret (s.afterCall nnn) = .next { s with pc := s.linkAddress, stack := (s.afterCall nnn).stack } := by
  have hsp := State.toNat_sp_afterCall h nnn
  rw [exec_ret_of_le (by omega), State.loweredSp_afterCall h]
  simp only [hsp, State.getElem_stack_afterCall_link h]
  rfl

/-- Settles O26: RET pops the link, which is the `pc` after the CALL by default, and `sp` goes up and down again. -/
theorem returnUndoesCall : Obligations.ReturnUndoesCall := by
  unfold Obligations.ReturnUndoesCall
  intro s nnn h hpost
  refine ⟨{ s with stack := (s.afterCall nnn).stack }, ?_, rfl,
    fun k hk hne => State.getElem_stack_afterCall_of_ne s nnn hk hne⟩
  simp only [execAll, exec_call_of_room h, exec_ret_afterCall h, State.linkAddress_of_postFetch hpost]

/-- CALLs that fit on the stack all go on: `sp` goes up by their number, the entries up to the old `sp` stay, and only `pc`,
`sp` and the stack are written (R103). -/
theorem execAll_map_call {s : State} {targets : List Word} (h : s.sp.toNat + targets.length ≤ 15) :
    ∃ t, execAll (targets.map .call) s = .next t ∧ t.sp.toNat = s.sp.toNat + targets.length ∧
      (∀ k (hk : k < 16), k ≤ s.sp.toNat → t.stack[k] = s.stack[k]) ∧
      t = { s with pc := t.pc, sp := t.sp, stack := t.stack } := by
  induction targets generalizing s with
  | nil => exact ⟨s, rfl, rfl, fun _ _ _ => rfl, rfl⟩
  | cons nnn rest ih =>
    rw [List.length_cons] at h
    have hroom : s.sp.toNat < 15 := by omega
    have hsp := State.toNat_sp_afterCall hroom nnn
    obtain ⟨t, hrun, htop, hstack, hframe⟩ := ih (s := s.afterCall nnn) (by omega)
    refine ⟨t, ?_, by rw [htop, hsp, List.length_cons]; omega, fun k hk hle => ?_, hframe⟩
    · simpa only [List.map_cons, execAll, exec_call_of_room hroom] using hrun
    · rw [hstack k hk (by omega), State.getElem_stack_afterCall_of_ne s nnn hk (by omega)]

/-- Settles O27: by induction on the targets the CALLs fill the stack, and with `sp = 15` the next one has no room. -/
theorem fifteenCallsNestAndTheNextOverflows : Obligations.FifteenCallsNestAndTheNextOverflows := by
  unfold Obligations.FifteenCallsNestAndTheNextOverflows
  intro s targets nnn h
  obtain ⟨t, hrun, hsp, hstack, hframe⟩ := execAll_map_call h.le
  rw [h] at hsp
  have hover := raises_call_of_full hsp.ge nnn
  rw [hsp] at hover
  exact ⟨t, hrun, hsp, fun r _ => State.readV_congr (by rw [hframe]) r, fun a => by rw [hframe], hstack, hover⟩

end Sys2Proof.Machine

/-! The register ALU: the words of its instructions, the two shapes of write, and the results and flags as sums, differences and
halves of numbers (R120 to R130). -/

namespace Sys2Proof.Machine

/-! ### The words of the ALU instructions -/

/-- A word built from its four nibbles, as a sum, decodes to the instruction whose encoding has these nibbles. -/
theorem encodes_xyWord {i : Instr} {base : Nat} {x y : RegNum} (f n : BitVec 4) (hbase : base = f.toNat * 4096 + n.toNat)
    (hi : encode i = wordXYN f x y n) (hwf : i.wellFormed = true) : Encodes (xyWord base x y) i := by
  rw [hbase, xyWord_eq_wordXYN f rfl, ← hi]
  exact encodes_encode hwf

/-- A word built from its F, X and low byte, as a sum, decodes to the instruction whose encoding has them. -/
theorem encodes_xnnWord {i : Instr} {base : Nat} {x : RegNum} {nn : Byte} (f : BitVec 4) (hbase : base = f.toNat * 4096)
    (hi : encode i = wordXNN f x nn) (hwf : i.wellFormed = true) : Encodes (xnnWord base x nn) i := by
  rw [xnnWord_eq_wordXNN f hbase, ← hi]
  exact encodes_encode hwf

/-! ### The two shapes of write -/

theorem writesRegister_of_exec {i : Instr} {s : State} {x : RegNum} {result : Byte}
    (h : exec i s = .next (s.writeV x result)) : WritesRegister i s x result :=
  ⟨_, h, by rw [State.readV_writeV, if_pos rfl], rfl, keepsRegs_writeV s x result, fun _ => rfl⟩

/-- The flag is written last, so it is what `VF` holds even where `VF` is the destination (R22). -/
theorem writesResultAndFlag_of_exec {i : Instr} {s : State} {x : RegNum} {result flag : Byte}
    (h : exec i s = .next (s.writeResultAndFlag x result flag)) : WritesResultAndFlag i s x result flag := by
  refine ⟨_, h, fun hx => ?_, ?_, rfl, fun r hr => ?_, fun _ => rfl⟩
  · rw [State.readV_writeResultAndFlag, if_neg hx.symm, if_pos rfl]
  · rw [State.readV_writeResultAndFlag, if_pos rfl]
  · rw [List.mem_cons, List.mem_singleton, not_or] at hr
    rw [State.readV_writeResultAndFlag, if_neg (Ne.symm hr.2), if_neg (Ne.symm hr.1)]

/-! ### Results as numbers -/

theorem add_eq_ofNat_mod (a b : Byte) : a + b = BitVec.ofNat 8 ((a.toNat + b.toNat) % 256) := by
  apply BitVec.eq_of_toNat_eq
  rw [BitVec.toNat_add, BitVec.toNat_ofNat, Nat.mod_mod]

theorem sub_eq_ofNat_mod (a b : Byte) : a - b = BitVec.ofNat 8 ((256 + a.toNat - b.toNat) % 256) := by
  apply BitVec.eq_of_toNat_eq
  rw [BitVec.toNat_sub, BitVec.toNat_ofNat]
  omega

theorem ushiftRight_one_eq_ofNat_div (a : Byte) : a >>> 1 = BitVec.ofNat 8 (a.toNat / 2) := by
  apply BitVec.eq_of_toNat_eq
  rw [BitVec.toNat_ushiftRight, BitVec.toNat_ofNat, Nat.shiftRight_eq_div_pow]
  omega

theorem shiftLeft_one_eq_ofNat_mod (a : Byte) : a <<< 1 = BitVec.ofNat 8 (a.toNat * 2 % 256) := by
  apply BitVec.eq_of_toNat_eq
  rw [BitVec.toNat_shiftLeft, BitVec.toNat_ofNat, Nat.shiftLeft_eq, Nat.mod_mod]

/-! ### Flags as numbers -/

theorem flagByte_decide (p : Prop) [Decidable p] : flagByte (decide p) = if p then 1 else 0 := by
  by_cases h : p <;> simp [flagByte, h]

theorem carryFlag_eq (a b : Byte) : carryFlag a b = if 255 < a.toNat + b.toNat then 1 else 0 := flagByte_decide _

theorem noBorrowFlag_eq (c : Config) (a b : Byte) : noBorrowFlag c a b =
    if b.toNat < a.toNat then 1 else if a.toNat = b.toNat then (if c.subFlagOnEqual then 1 else 0) else 0 := by
  simp only [noBorrowFlag, flagByte, BitVec.toNat_inj]

theorem shiftRightFlag_eq (a : Byte) : shiftRightFlag a = BitVec.ofNat 8 (a.toNat % 2) := by
  rw [shiftRightFlag, ← BitVec.testBit_toNat, Nat.testBit_zero, flagByte_decide]
  rcases Nat.mod_two_eq_zero_or_one a.toNat with h | h <;> rw [h] <;> rfl

/-- Bit 7 of a byte is whether it reaches 128. -/
theorem shiftLeftFlag_eq (a : Byte) : shiftLeftFlag a = BitVec.ofNat 8 (a.toNat / 128) := by
  have ha := a.isLt
  rw [shiftLeftFlag, ← BitVec.testBit_toNat, Nat.testBit_eq_decide_div_mod_eq, flagByte_decide]
  rcases (by omega : a.toNat / 128 = 0 ∨ a.toNat / 128 = 1) with h | h <;> rw [show 2 ^ 7 = 128 from rfl, h] <;> rfl

theorem State.shiftOperand_eq (s : State) (x y : RegNum) :
    s.shiftOperand x y = if s.config.shiftSource = .vx then s.readV x else s.readV y := by
  unfold State.shiftOperand
  cases s.config.shiftSource <;> rfl

/-! ### The statements -/

/-- Settles O29: each of the six writes one register, and ADD writes the wrapped sum. -/
theorem loadsLogicAndAddImmediateWriteOnlyVx : Obligations.LoadsLogicAndAddImmediateWriteOnlyVx := by
  unfold Obligations.LoadsLogicAndAddImmediateWriteOnlyVx
  intro s x y nn
  refine ⟨⟨encodes_xnnWord 0x6 rfl rfl rfl, writesRegister_of_exec rfl⟩,
    ⟨encodes_xyWord 0x8 0x0 rfl rfl rfl, writesRegister_of_exec rfl⟩,
    ⟨encodes_xyWord 0x8 0x1 rfl rfl rfl, writesRegister_of_exec rfl⟩,
    ⟨encodes_xyWord 0x8 0x2 rfl rfl rfl, writesRegister_of_exec rfl⟩,
    ⟨encodes_xyWord 0x8 0x3 rfl rfl rfl, writesRegister_of_exec rfl⟩, encodes_xnnWord 0x7 rfl rfl rfl, ?_⟩
  rw [← add_eq_ofNat_mod]
  exact writesRegister_of_exec rfl

/-- Settles O30: the sum of the bytes is the sum of the numbers modulo 256, and its carry is written last. -/
theorem addWritesTheSumAndTheCarry : Obligations.AddWritesTheSumAndTheCarry := by
  unfold Obligations.AddWritesTheSumAndTheCarry
  intro s x y
  rw [← add_eq_ofNat_mod, ← carryFlag_eq]
  exact ⟨encodes_xyWord 0x8 0x4 rfl rfl rfl, writesResultAndFlag_of_exec rfl⟩

/-- Settles O31: SUB and SUBN are one subtraction with the operands swapped, and so is the equality that the flag tests. -/
theorem subtractionsWriteTheDifferenceAndNoBorrow : Obligations.SubtractionsWriteTheDifferenceAndNoBorrow := by
  unfold Obligations.SubtractionsWriteTheDifferenceAndNoBorrow
  intro s x y a b onEqual
  refine ⟨⟨encodes_xyWord 0x8 0x5 rfl rfl rfl, ?_⟩, encodes_xyWord 0x8 0x7 rfl rfl rfl, ?_⟩
  · rw [← sub_eq_ofNat_mod, ← noBorrowFlag_eq]
    exact writesResultAndFlag_of_exec rfl
  · simp only [eq_comm (a := a)]
    rw [← sub_eq_ofNat_mod, ← noBorrowFlag_eq]
    exact writesResultAndFlag_of_exec rfl

/-- Settles O32: the shifted value is the operand `ShiftSource` names, halved or doubled, and the flag is its lowest or highest
bit. -/
theorem shiftsWriteTheResultAndTheBitShiftedOut : Obligations.ShiftsWriteTheResultAndTheBitShiftedOut := by
  unfold Obligations.ShiftsWriteTheResultAndTheBitShiftedOut
  rintro s x y _ rfl
  rw [← State.shiftOperand_eq]
  rw [← ushiftRight_one_eq_ofNat_div, ← shiftRightFlag_eq, ← shiftLeft_one_eq_ofNat_mod, ← shiftLeftFlag_eq]
  exact ⟨⟨encodes_xyWord 0x8 0x6 rfl rfl rfl, writesResultAndFlag_of_exec rfl⟩,
    encodes_xyWord 0x8 0xE rfl rfl rfl, writesResultAndFlag_of_exec rfl⟩

end Sys2Proof.Machine

/-! The display restored and cleared (R150, R152): a second draw over the cells of the first, and CLS. -/

namespace Sys2Proof.Machine

/-! ### A second draw over the cells of the first (R152) -/

/-- In the frame, the blit XORs the pixels under the sprite and leaves the others. -/
theorem State.lit_blit (s : State) (x y : RegNum) (n : Nat) {px py : Nat} (hx : px < 64) (hy : py < 32) :
    (DrawCovers s x y n px py → (s.blit x y n).disp.lit px py = !s.disp.lit px py) ∧
      (¬ DrawCovers s x y n px py → (s.blit x y n).disp.lit px py = s.disp.lit px py) := by
  rw [drawCovers_iff]
  exact Blit.lit_rows ⟨s.disp, false⟩ (s.originX x) (s.originY y) _ hx hy

section
variable {s t : State} {x y : RegNum} {n : Nat} (hdisp : t.disp = (s.blit x y n).disp)
  (hcovers : ∀ px py, DrawCovers t x y n px py ↔ DrawCovers s x y n px py)
include hdisp hcovers

/-- On the display that the first draw leaves, a draw that covers the same pixels XORs them back. -/
theorem State.disp_blit_blit : (t.blit x y n).disp = s.disp := by
  refine Display.ext_lit fun px py hx hy => ?_
  obtain ⟨hfirstIn, hfirstOut⟩ := s.lit_blit x y n hx hy
  obtain ⟨hsecondIn, hsecondOut⟩ := t.lit_blit x y n hx hy
  by_cases hc : DrawCovers s x y n px py
  · rw [hsecondIn ((hcovers px py).2 hc), hdisp, hfirstIn hc, Bool.not_not]
  · rw [hsecondOut (hc ∘ (hcovers px py).1), hdisp, hfirstOut hc]

/-- A pixel under the sprite is lit after the first draw exactly when it was dark before it, and those are what the second draw
hits. -/
theorem State.hit_blit_blit :
    (t.blit x y n).hit = true ↔
      ∃ px py, px < 64 ∧ py < 32 ∧ s.disp.lit px py = false ∧ DrawCovers s x y n px py := by
  rw [State.hit_blit]
  refine exists_congr fun px => exists_congr fun py => and_congr_right fun hx => and_congr_right fun hy => ?_
  rw [hcovers, and_comm]
  refine and_congr_left fun hc => ?_
  rw [hdisp, (s.lit_blit x y n hx hy).1 hc, Bool.not_eq_true']

end

theorem flagByte_eq_one_iff (c : Bool) : flagByte c = 1 ↔ c = true := by
  cases c <;> decide

/-- Settles O36: the first draw leaves memory, `I` and the parameters, so the second is in bounds too; its blit undoes the first,
and `VF` is its hit. -/
theorem drawingTwiceRestoresTheDisplay : Obligations.DrawingTwiceRestoresTheDisplay := by
  unfold Obligations.DrawingTwiceRestoresTheDisplay
  intro s x y n hfits
  refine ⟨_, exec_drw_of_fits hfits, fun hcovers => ⟨_, exec_drw_of_fits hfits, State.disp_blit_blit rfl hcovers, ?_⟩⟩
  rw [State.readV_writeV, if_pos rfl, flagByte_eq_one_iff]
  exact State.hit_blit_blit rfl hcovers

/-! ### CLS (R150) -/

theorem exec_cls (s : State) : exec .cls s = .next { s with disp := Display.dark } := rfl

/-- Settles O34: the next state differs in the display only, and every cell of the frame of a dark display reads as dark. -/
theorem clearDarkensEveryCell : Obligations.ClearDarkensEveryCell := by
  unfold Obligations.ClearDarkensEveryCell
  refine ⟨encodes_encode (i := .cls) rfl, fun s => ⟨_, exec_cls s, fun x y hx hy => ?_, rfl, fun _ => rfl⟩⟩
  rw [getPixel_of_lt _ hx hy]
  exact congrArg _ (Display.getElem_dark hx hy)

end Sys2Proof.Machine

/-! Keys, timers and the host (R160 to R172, R215 to R223): the key tests, the key wait, the timer transfers and the tick, then
each operation of the host. -/

namespace Sys2Proof.Machine

/-! ### The words of the key and timer instructions -/

/-- A word built from its F, X and fixed low byte, as a sum, decodes to the instruction whose encoding has them. -/
theorem encodes_xWord {i : Instr} {base : Nat} {x : RegNum} (f : BitVec 4) (nn : Byte)
    (hbase : base = f.toNat * 4096 + nn.toNat) (hi : encode i = wordXNN f x nn) (hwf : i.wellFormed = true) :
    Encodes (xWord base x) i := by
  have hword : xWord base x = xnnWord (f.toNat * 4096) x nn := by
    rw [xWord, xnnWord, hbase, Nat.add_right_comm]
  rw [hword]
  exact encodes_xnnWord f rfl hi hwf

/-! ### The key tests (R160, R161) -/

theorem skipOnKey_of_lt {s : State} {x : RegNum} (h : (s.readV x).toNat < 16) (down : Bool) :
    skipOnKey x down s = .next { s with pc := if s.key[(s.readV x).toNat] = down then s.pc + 2 else s.pc } := by
  obtain ⟨_, he⟩ | ⟨hpast, -⟩ := skipOnKey_cases x down s
  · rw [he, skipIf_decide]
  · exact absurd h (Nat.not_lt.2 hpast)

theorem skipOnKey_of_gt {s : State} {x : RegNum} (h : 15 < (s.readV x).toNat) (down : Bool) :
    skipOnKey x down s = raise (.keyIndexOutOfRange (s.readV x)) s := by
  obtain ⟨hlt, -⟩ | ⟨-, he⟩ := skipOnKey_cases x down s
  · exact absurd hlt (Nat.not_lt.2 h)
  · exact he

/-- Settles O37: both tests are one skip, SKP on a key that is down and SKNP on one that is up, and it raises past the keys. -/
theorem keyTestsSkipOrFault : Obligations.KeyTestsSkipOrFault := by
  unfold Obligations.KeyTestsSkipOrFault
  intro s x
  refine ⟨encodes_xWord 0xE 0x9E rfl rfl rfl, encodes_xWord 0xE 0xA1 rfl rfl rfl, fun h => ⟨skipOnKey_of_lt h true, ?_⟩,
    fun h => ⟨skipOnKey_of_gt h true, skipOnKey_of_gt h false⟩⟩
  have hup := skipOnKey_of_lt h false
  simp only [← Bool.not_eq_true, ite_not] at hup
  exact hup

/-! ### The timers (R162 to R164, R172) -/

/-- Settles O38: each transfer writes the one register or timer it names. -/
theorem timerTransfersCopyOneByte : Obligations.TimerTransfersCopyOneByte := by
  unfold Obligations.TimerTransfersCopyOneByte
  intro s x
  exact ⟨⟨encodes_xWord 0xF 0x07 rfl rfl rfl, writesRegister_of_exec rfl⟩, ⟨encodes_xWord 0xF 0x15 rfl rfl rfl, rfl⟩,
    encodes_xWord 0xF 0x18 rfl rfl rfl, rfl⟩

/-- A timer at 0 stays there, which is what subtraction of numbers does. -/
theorem toNat_countDown (b : Byte) : (countDown b).toNat = b.toNat - 1 := by
  unfold countDown
  split
  case isTrue h => rw [h]; rfl
  case isFalse h => bv_omega

/-- Settles O41: a tick counts both timers down, and writes nothing else. -/
theorem tickCountsBothTimersDownToZero : Obligations.TickCountsBothTimersDownToZero := by
  unfold Obligations.TickCountsBothTimersDownToZero
  exact fun s => ⟨tick s, rfl, toNat_countDown s.dt, toNat_countDown s.st, rfl⟩

/-! ### The key wait (R165, R167) -/

theorem exec_ldVxK_of_lowest {s : State} (x : RegNum) {k : Nat} (hk : k < 16) (hdown : s.key[k] = true)
    (hlow : ∀ j (hj : j < k), s.key[j] = false) : exec (.ldVxK x) s = .next (s.writeV x (BitVec.ofNat 8 k)) := by
  simp only [exec, execLdVxK, (State.firstKeyDown_eq_some_iff s k).2 ⟨hk, hdown, hlow⟩]

theorem exec_ldVxK_of_none_down {s : State} (x : RegNum) (hup : ∀ k (hk : k < 16), s.key[k] = false) :
    exec (.ldVxK x) s = .next { s with pc := s.pc - 2 } := by
  simp only [exec, execLdVxK, (State.firstKeyDown_eq_none_iff s).2 hup]

/-- Settles O39: the answer is the lowest key; with none down only `pc` is written, which a tick neither reads nor writes. -/
theorem keyWaitTakesTheLowestKeyOrRewinds : Obligations.KeyWaitTakesTheLowestKeyOrRewinds := by
  unfold Obligations.KeyWaitTakesTheLowestKeyOrRewinds
  intro s x
  exact ⟨encodes_xWord 0xF 0x0A rfl rfl rfl,
    fun k hk hdown hlow => writesRegister_of_exec (exec_ldVxK_of_lowest x hk hdown hlow),
    fun hup => ⟨exec_ldVxK_of_none_down x hup, exec_ldVxK_of_none_down (s := tick s) x hup⟩⟩

/-- The rewind undoes the fetch's advance, so a step at an FX0A with no key down leaves the whole state as it is. -/
theorem step_ldVxK_of_none_down {s : State} {x : RegNum} (hrun : s.halted = false) (hfetch : Fetches s (.ldVxK x))
    (hup : ∀ k (hk : k < 16), s.key[k] = false) : step s = .next s := by
  rw [step_eq_exec hrun hfetch, exec_ldVxK_of_none_down (s := advance s) x hup, advance_pc, BitVec.add_sub_cancel]
  rfl

/-- Settles O40: with no key down the state is a fixed point of a step; with one down the step is the capture. -/
theorem keyWaitIsIdempotentUntilAKeyIsDown : Obligations.KeyWaitIsIdempotentUntilAKeyIsDown := by
  unfold Obligations.KeyWaitIsIdempotentUntilAKeyIsDown
  intro s x hrun hfetch
  refine ⟨fun hup => stepN_fixed (step_ldVxK_of_none_down hrun hfetch hup), fun k hk hdown hlow => ?_⟩
  refine ⟨_, (step_eq_exec hrun hfetch).trans (exec_ldVxK_of_lowest (s := advance s) x hk hdown hlow), ?_, rfl,
    keepsRegs_writeV (advance s) x _, rfl⟩
  rw [State.readV_writeV, if_pos rfl]

/-! ### The host's operations (R215 to R223) -/

theorem loadBytes_of_fits {addr : Nat} {bytes : List Byte} (h : addr + bytes.length ≤ memSize) (s : State) :
    loadBytes addr bytes s = .next { s with mem := s.mem.writeBytes addr bytes } := by
  rw [loadBytes, if_neg (Nat.not_lt.2 h)]

theorem loadBytes_of_past_memory {addr : Nat} {bytes : List Byte} (h : memSize < addr + bytes.length) (s : State) :
    loadBytes addr bytes s = .refused (.loadOutOfRange addr bytes.length) := by
  rw [loadBytes, if_pos h]

/-- Bytes written from an address read back in order. -/
theorem Memory.read_writeBytes_inside {m : Memory} {a : Nat} {bs : List Byte} (hm : m.wf = true)
    (ha : a + bs.length ≤ memSize) {k : Nat} (hk : k < bs.length) : (m.writeBytes a bs).read (a + k) = bs[k] := by
  rw [Memory.read_writeBytes hm ha, dif_pos (by omega)]
  simp only [Nat.add_sub_cancel_left]

theorem length_fontTable_fits (c : Config) : 0 + c.fontTable.toList.length ≤ memSize := by
  rw [Vector.length_toList]
  decide

/-- After `load_font` the first 80 bytes are the font table (R217). -/
theorem read_loadFont {s : State} (hwf : s.mem.wf = true) {a : Nat} (ha : a < 80) :
    (loadFont s).mem.read a = s.config.fontTable[a] := by
  have hread := Memory.read_writeBytes_inside (k := a) hwf (length_fontTable_fits s.config)
    (by rwa [Vector.length_toList])
  rwa [Nat.zero_add, Vector.getElem_toList] at hread

theorem keepsMemoryOutside_loadFont {s : State} (hwf : s.mem.wf = true) : KeepsMemoryOutside s (loadFont s) 0 80 :=
  fun a ha => Memory.read_writeBytes_outside hwf (length_fontTable_fits s.config) (by rwa [Vector.length_toList])

theorem setKey_of_lt {k : Nat} (h : k < 16) (down : Bool) (s : State) :
    setKey k down s = .next { s with key := s.key.set k down h } := by
  rw [setKey, dif_pos h]

theorem setKey_of_ge {k : Nat} (h : 16 ≤ k) (down : Bool) (s : State) : setKey k down s = .refused (.noSuchKey k) := by
  rw [setKey, dif_neg (Nat.not_lt.2 h)]

theorem runCommand_getPixel_of_lt (s : State) {x y : Nat} (hx : x < 64) (hy : y < 32) :
    runCommand (.getPixel x y) s = .next s := by
  simp only [runCommand, getPixel_of_lt s hx hy]

theorem runCommand_getPixel_outside (s : State) {x y : Nat} (h : 64 ≤ x ∨ 32 ≤ y) :
    runCommand (.getPixel x y) s = .refused (.noSuchPixel x y) := by
  simp only [runCommand, getPixel_outside s h]

/-- Settles O51: one operation after another, by the lemma of its effect and, where it can be refused, of its refusal. -/
theorem hostOperationsDoTheirEffectOrAreRefused : Obligations.HostOperationsDoTheirEffectOrAreRefused := by
  unfold Obligations.HostOperationsDoTheirEffectOrAreRefused
  intro s hwf
  refine ⟨fun addr bytes h => ?loadBytes, fun addr bytes h => loadBytes_of_past_memory h s, ?loadFont,
    fun k down h => ?setKey, fun k down h => setKey_of_ge h down s, rfl, fun x y hx hy => getPixel_of_lt s hx hy,
    fun x y h => getPixel_outside s h, fun x y hx hy => runCommand_getPixel_of_lt s hx hy,
    fun x y h => runCommand_getPixel_outside s h, ?readState, rfl, tickCountsBothTimersDownToZero s, ?create, rfl⟩
  case loadBytes =>
    exact ⟨_, loadBytes_of_fits h s, fun k hk => Memory.read_writeBytes_inside hwf h hk,
      fun a ha => Memory.read_writeBytes_outside hwf h ha, rfl⟩
  case loadFont => exact ⟨_, rfl, fun a ha => read_loadFont hwf ha, keepsMemoryOutside_loadFont hwf, rfl⟩
  case setKey =>
    exact ⟨_, setKey_of_lt h down s, Vector.getElem_set_self h,
      fun j hj hne => Vector.getElem_set_ne h hj hne.symm, rfl⟩
  case readState => exact ⟨rfl, rfl, rfl, rfl, rfl, rfl, rfl, fun _ => rfl, rfl, rfl⟩
  case create =>
    exact ⟨_, rfl, rfl, State.read_mem_create s.config, State.readV_create s.config, rfl, rfl, rfl, rfl⟩

end Sys2Proof.Machine

/-! Index and memory (R180 to R186): the three writers of `I`, the stores at `I` and the load from it, and a load that follows the
store with the same X. -/

namespace Sys2Proof.Machine

/-! ### The writers of `I` (R180 to R182) -/

theorem encodes_ldI {nnn : Word} (h : nnn.toNat < 0x1000) : Encodes (nnnWord 0xA000 nnn) (.ldI nnn) := by
  rw [nnnWord_eq_wordNNN (base := 0xA000) 0xA rfl h]
  exact encodes_encode (i := .ldI nnn) (decide_eq_true h)

theorem add_setWidth_eq_ofNat_mod (a : Word) (b : Byte) :
    a + b.setWidth 16 = BitVec.ofNat 16 ((a.toNat + b.toNat) % 65536) := by
  apply BitVec.eq_of_toNat_eq
  rw [BitVec.toNat_add, BitVec.toNat_setWidth, BitVec.toNat_ofNat]
  omega

theorem setWidth_mul_five_eq_ofNat (b : Byte) : b.setWidth 16 * 5 = BitVec.ofNat 16 (b.toNat * 5) := by
  rw [BitVec.ofNat_mul, BitVec.ofNat_toNat]
  rfl

/-- Settles O42: each of the three is one write of `I`, the sum and the product taken as numbers. -/
theorem indexInstructionsWriteOnlyI : Obligations.IndexInstructionsWriteOnlyI := by
  unfold Obligations.IndexInstructionsWriteOnlyI
  intro s x nnn
  rw [← add_setWidth_eq_ofNat_mod, ← setWidth_mul_five_eq_ofNat]
  exact ⟨encodes_ldI, rfl, ⟨encodes_xWord 0xF 0x1E rfl rfl rfl, rfl⟩, encodes_xWord 0xF 0x29 rfl rfl rfl, rfl⟩

/-! ### The stores at `I` (R183, R184) -/

/-- The state after FX33 (R183). -/
def State.afterBcd (s : State) (x : RegNum) : State :=
  { s with mem := s.mem.writeBytes s.index.toNat (bcdDigits (s.readV x)) }

theorem exec_ldB_of_fits {s : State} {x : RegNum} (h : s.index.toNat + 3 ≤ memSize) :
    exec (.ldB x) s = .next (s.afterBcd x) :=
  storeAtIndex_fits (.inr h)

/-- A digit fits in a byte. -/
theorem toNat_getElem_bcdDigits (b : Byte) :
    (bcdDigits b)[0].toNat = b.toNat / 100 ∧ (bcdDigits b)[1].toNat = b.toNat / 10 % 10 ∧
      (bcdDigits b)[2].toNat = b.toNat % 10 := by
  have hb := b.isLt
  simp only [bcdDigits, List.getElem_cons_zero, List.getElem_cons_succ, BitVec.toNat_ofNat]
  omega

/-- Settles O43: the bytes stored read back as the digits, and every other address reads as before. -/
theorem bcdStoresTheThreeDigitsAtI : Obligations.BcdStoresTheThreeDigitsAtI := by
  unfold Obligations.BcdStoresTheThreeDigitsAtI
  intro s x
  refine ⟨encodes_xWord 0xF 0x33 rfl rfl rfl, fun hwf hfits => ?_⟩
  obtain ⟨hhundreds, htens, hones⟩ := toNat_getElem_bcdDigits (s.readV x)
  have hread (k : Nat) (hk : k < 3) : (s.afterBcd x).mem.read (s.index.toNat + k) = (bcdDigits (s.readV x))[k] :=
    Memory.read_writeBytes_inside hwf hfits hk
  rw [← hread 0 (by decide), Nat.add_zero] at hhundreds
  rw [← hread 1 (by decide)] at htens
  rw [← hread 2 (by decide)] at hones
  exact ⟨s.afterBcd x, exec_ldB_of_fits hfits, hhundreds, htens, hones,
    fun a ha => Memory.read_writeBytes_outside hwf hfits ha, rfl⟩

theorem State.read_dumpedMemory_readV {s : State} {x : RegNum} (hwf : s.mem.wf = true)
    (hfits : s.index.toNat + x.toNat + 1 ≤ memSize) {r : RegNum} (hr : r.toNat ≤ x.toNat) :
    (s.dumpedMemory x).read (s.index.toNat + r.toNat) = s.readV r := by
  rw [State.read_dumpedMemory hwf hfits hr, BitVec.ofNat_toNat, BitVec.setWidth_eq]

theorem State.read_dumpedMemory_outside {s : State} {x : RegNum} (hwf : s.mem.wf = true)
    (hfits : s.index.toNat + x.toNat + 1 ≤ memSize) {a : Nat}
    (ha : a < s.index.toNat ∨ s.index.toNat + (x.toNat + 1) ≤ a) : (s.dumpedMemory x).read a = s.mem.read a := by
  apply Memory.read_writeBytes_outside hwf <;> rwa [State.length_firstRegs]

/-- Settles O44: the bytes stored read back as the registers, and every other address reads as before. -/
theorem registerDumpStoresV0ToVxAtI : Obligations.RegisterDumpStoresV0ToVxAtI := by
  unfold Obligations.RegisterDumpStoresV0ToVxAtI
  intro s x
  exact ⟨encodes_xWord 0xF 0x55 rfl rfl rfl, fun hwf hfits => ⟨_, exec_stRegs_of_fits hfits,
    fun r hr => State.read_dumpedMemory_readV hwf hfits hr,
    fun a ha => State.read_dumpedMemory_outside hwf hfits ha, rfl⟩⟩

/-! ### The load from `I` (R185) -/

/-- The state after FX65 (R185). -/
def State.afterLoad (s : State) (x : RegNum) : State :=
  s.loadRegs 0 (s.mem.readBytes s.index.toNat (x.toNat + 1))

theorem exec_ldRegs_of_fits {s : State} {x : RegNum} (h : s.index.toNat + x.toNat + 1 ≤ memSize) :
    exec (.ldRegs x) s = .next (s.afterLoad x) := by
  simp only [exec, execLdRegs, (badAddress_eq_none_iff _ (x.toNat + 1)).2 (.inr h), State.afterLoad]

/-- After FX65 a register up to `X` holds the byte at `I` plus its number, and a higher one what it held. -/
theorem State.readV_afterLoad (s : State) (x r : RegNum) :
    (s.afterLoad x).readV r = if r.toNat ≤ x.toNat then s.mem.read (s.index.toNat + r.toNat) else s.readV r := by
  have hx := x.isLt
  rw [State.afterLoad, State.readV_loadRegs _ _ _ (by rw [Memory.length_readBytes]; omega)]
  by_cases hr : r.toNat ≤ x.toNat
  · rw [dif_pos (by rw [Memory.length_readBytes]; omega), if_pos hr, Memory.getElem_readBytes, Nat.sub_zero]
  · rw [dif_neg (by rw [Memory.length_readBytes]; omega), if_neg hr]

/-- Settles O45: the load writes registers only, up to `X` from memory. -/
theorem registerLoadReadsV0ToVxAtI : Obligations.RegisterLoadReadsV0ToVxAtI := by
  unfold Obligations.RegisterLoadReadsV0ToVxAtI
  intro s x
  refine ⟨encodes_xWord 0xF 0x65 rfl rfl rfl, fun hfits => ⟨s.afterLoad x, exec_ldRegs_of_fits hfits, fun r hr => ?_,
    fun r hr => ?_, State.loadRegs_eq s 0 _, fun a => by rw [State.afterLoad, State.loadRegs_mem]⟩⟩
  · rw [State.readV_afterLoad, if_pos hr]
  · rw [State.readV_afterLoad, if_neg (Nat.not_le.2 hr)]

/-! ### A load after the store (R184, R185) -/

/-- Settles O47: the load reads each byte where the store put it, so what the registers hold in between is overwritten. -/
theorem registerLoadUndoesRegisterDump : Obligations.RegisterLoadUndoesRegisterDump := by
  unfold Obligations.RegisterLoadUndoesRegisterDump
  intro s u x hwf hfits
  refine ⟨_, exec_stRegs_of_fits hfits, fun hmem hindex => ⟨u.afterLoad x, exec_ldRegs_of_fits (by rwa [hindex]),
    fun r hr => ?_⟩⟩
  rw [State.readV_afterLoad, if_pos hr, hmem, hindex]
  exact State.read_dumpedMemory_readV hwf hfits hr

end Sys2Proof.Machine

/-! Faults and the end of a run (R201 to R205, R210, R240): what a step that halts the block can be, the table of causes, and
what a run of host commands keeps. -/

namespace Sys2Proof.Machine

/-! ### A step that halts the block (R201) -/

theorem address_of_effect_raises {i : Instr} {s : State} {cause : Word → FaultCause} (h : effect i s = .raises cause)
    (a : Word) : (cause a).address = a := by
  rw [← (effect_raises h).2 a 0, FaultCause.address_withAddress]

/-- An instruction run after the fetch halts a running block only by a fault, which leaves the state before the step (R201). -/
theorem eq_haltWith_of_exec_advance {i : Instr} {s t : State} (hrun : s.halted = false)
    (h : exec i (advance s) = .next t) (ht : t.halted = true) :
    ∃ cause, effect i (advance s) = .raises cause ∧ t = haltWith (cause s.pc) s := by
  rw [exec_eq_apply] at h
  cases he : effect i (advance s) with
  | writes w =>
    rw [he] at h
    cases h
    exact absurd (hrun.symm.trans ht) Bool.false_ne_true
  | raises cause =>
    rw [he, Effect.apply, raise_advance] at h
    cases h
    exact ⟨cause, rfl, rfl⟩
  | stops r => rw [he] at h; cases h

/-- A step that halts a running block takes the fetch fault, the decode fault or the fault of the fetched instruction. -/
theorem step_halts_cases {s t : State} (hrun : s.halted = false) (h : step s = .next t) (ht : t.halted = true) :
    (memSize ≤ s.pc.toNat + 1 ∧ t = haltWith (.fetchOutOfRange s.pc) s) ∨
    (s.pc.toNat + 1 < memSize ∧ decodeWord s.config.strictDecode (fetchWord s) = .error (.illegalWord (fetchWord s)) ∧
      t = haltWith (.decodeError (fetchWord s) s.pc) s) ∨
    ∃ i cause, Fetches s i ∧ effect i (advance s) = .raises cause ∧ t = haltWith (cause s.pc) s := by
  obtain ⟨hpc, he⟩ | ⟨hpc, hd, he⟩ | ⟨i, hi, he⟩ := step_cases hrun
  · cases he.symm.trans h
    exact .inl ⟨hpc, rfl⟩
  · cases he.symm.trans h
    exact .inr (.inl ⟨hpc, hd, rfl⟩)
  · obtain ⟨cause, hcause, hhalt⟩ := eq_haltWith_of_exec_advance hrun (he.symm.trans h) ht
    exact .inr (.inr ⟨i, cause, hi, hcause, hhalt⟩)

theorem State.atEnd.not_halted {s : State} (h : s.atEnd) : s.halted ≠ true := Bool.eq_false_iff.1 h.1

/-- Settles O10: whatever the fault, the next state is the one before the step with the fault taken, and it is halted. -/
theorem faultingStepIsDiscarded : Obligations.FaultingStepIsDiscarded := by
  unfold Obligations.FaultingStepIsDiscarded
  intro s t hrun h ht
  refine ⟨?_, stepN_fixed (step_of_halted ht), fun hend => hend.not_halted ht⟩
  obtain ⟨-, rfl⟩ | ⟨-, -, rfl⟩ | ⟨i, cause, -, hcause, rfl⟩ := step_halts_cases hrun h ht
  · exact ⟨_, rfl, rfl⟩
  · exact ⟨_, rfl, rfl⟩
  · exact ⟨_, rfl, address_of_effect_raises hcause s.pc⟩

/-! ### The table of causes (R202) -/

theorem legalWord_eq_true_iff (strict : Bool) (w : Word) :
    legalWord strict w = true ↔ ∃ i, decodeWord strict w = .ok i := by
  simp [exists_decodeWord_iff, legalWord, OpcodeRow.matchesWord]

/-- A checked access whose own effect is no fault raises the lowest bad address (R205). -/
theorem lowestBadAddress_of_checked_raises {s : State} {n : Nat} {w : Writes} {cause : Word → FaultCause}
    (h : Effect.checked s n (.writes w) = .raises cause) :
    ∃ addr, LowestBadAddress s.index.toNat n addr ∧ cause = .memOutOfRange addr := by
  unfold Effect.checked at h
  cases hb : badAddress s.index.toNat n with
  | none => rw [hb] at h; cases h
  | some addr =>
    rw [hb] at h
    cases h
    exact ⟨addr, badAddress_eq_some_iff.1 hb, rfl⟩

/-- A key test that faults does so on a key that does not exist (R160, R161). -/
theorem readV_of_keyTest_raises {x : RegNum} {down : Bool} {s : State} {cause : Word → FaultCause}
    (h : Effect.keyTest x down s = .raises cause) : 15 < (s.readV x).toNat := by
  unfold Effect.keyTest at h
  cases hk : s.keyAt (s.readV x).toNat with
  | none => exact (State.keyAt_eq_none_iff s _).1 hk
  | some k => rw [hk] at h; cases h

/-- An instruction raises a fault of its own for a bad data address, for a full stack or for a key that does not exist. -/
theorem effect_raises_cases {i : Instr} {s : State} {cause : Word → FaultCause} (h : effect i s = .raises cause) :
    (∃ addr, LowestBadAddress s.index.toNat (dataBytes i) addr ∧ cause = .memOutOfRange addr) ∨
    (∃ nnn, i = .call nnn ∧ 15 ≤ s.sp.toNat ∧ cause = .stackOverflow (s.sp.toNat + 1)) ∨
    ∃ x, (i = .skp x ∨ i = .sknp x) ∧ 15 < (s.readV x).toNat ∧ cause = .keyIndexOutOfRange (s.readV x) := by
  cases i
  case drw | ldB | ldRegs => exact .inl (lowestBadAddress_of_checked_raises h)
  case stRegs x =>
    have hlen : (s.firstRegs (x.toNat + 1)).length = dataBytes (.stRegs x) := State.length_firstRegs s _
    exact .inl (hlen ▸ lowestBadAddress_of_checked_raises h)
  case call nnn =>
    simp only [effect] at h
    split at h <;> cases h
    case isTrue hfull => exact .inr (.inl ⟨nnn, rfl, Nat.le_of_succ_le_succ hfull, rfl⟩)
  case skp x => exact .inr (.inr ⟨x, .inl rfl, readV_of_keyTest_raises h, Effect.keyTest_eq_raises h⟩)
  case sknp x => exact .inr (.inr ⟨x, .inr rfl, readV_of_keyTest_raises h, Effect.keyTest_eq_raises h⟩)
  case ret | ldVxK =>
    simp only [effect] at h
    split at h <;> cases h
  all_goals cases h

/-- The fault of a fetched instruction stands in the table, where `sp` is in range (R26). -/
theorem raisesFault_of_effect_raises {i : Instr} {s : State} {cause : Word → FaultCause} (hsp : s.sp.toNat ≤ 15)
    (hi : Fetches s i) (h : effect i (advance s) = .raises cause) : RaisesFault s (cause s.pc) := by
  obtain ⟨addr, haddr, rfl⟩ | ⟨nnn, rfl, hfull, rfl⟩ | ⟨x, rfl | rfl, hkey, rfl⟩ := effect_raises_cases h
  · exact .memory i addr hi haddr
  · have hsp15 : s.sp.toNat = 15 := Nat.le_antisymm hsp hfull
    rw [advance_sp, hsp15]
    exact .stack nnn hi hsp15
  · exact .key x (.inl hi) hkey
  · exact .key x (.inr hi) hkey

/-- Under its condition in the table, a step of a running block takes the fault. -/
theorem step_of_raisesFault {s : State} {c : FaultCause} (hrun : s.halted = false) (h : RaisesFault s c) :
    step s = .next (haltWith c s) := by
  cases h with
  | fetch hpc => exact step_of_fetch_past_memory hrun hpc
  | decode hpc hillegal =>
    refine illegalWordsAreThoseThatMatchNoRow.2 s hrun hpc fun hrow => ?_
    rw [(legalWord_eq_true_iff _ _).2 ((exists_decodeWord_iff _ _).2 hrow)] at hillegal
    cases hillegal
  | memory i addr hi haddr =>
    rw [step_eq_exec hrun hi, exec_eq_apply, effect_of_lowestBadAddress (s := advance s) haddr, Effect.apply, raise_advance]
  | stack nnn hi hsp =>
    have hraise := raises_call_of_full (s := advance s) hsp.ge nnn
    rw [advance_sp, hsp] at hraise
    exact (step_eq_exec hrun hi).trans (hraise.trans (raise_advance _ s))
  | key x hi hkey =>
    obtain hi | hi := hi
    · exact (step_eq_exec hrun hi).trans ((skipOnKey_of_gt (s := advance s) hkey true).trans (raise_advance _ s))
    · exact (step_eq_exec hrun hi).trans ((skipOnKey_of_gt (s := advance s) hkey false).trans (raise_advance _ s))

/-- Settles O12: a step that halts the block takes a fault of the table, and under a condition of the table a step takes its
fault. -/
theorem stepRaisesExactlyTheListedFaults : Obligations.StepRaisesExactlyTheListedFaults := by
  unfold Obligations.StepRaisesExactlyTheListedFaults
  intro s c hs hrun
  refine ⟨?_, fun hc => ⟨_, step_of_raisesFault hrun hc, rfl, rfl⟩⟩
  rintro ⟨t, h, ht, hfault⟩
  obtain ⟨hpc, rfl⟩ | ⟨hpc, hd, rfl⟩ | ⟨i, cause, hi, hcause, rfl⟩ := step_halts_cases hrun h ht <;> cases hfault
  · exact .fetch hpc
  · refine .decode hpc (Bool.eq_false_iff.2 fun hlegal => ?_)
    obtain ⟨i, hi⟩ := (legalWord_eq_true_iff _ _).1 hlegal
    cases hd.symm.trans hi
  · exact raisesFault_of_effect_raises hs.spInRange hi hcause

/-! ### What a run keeps (R210, R240) -/

/-- What each of the commands keeps, the run of them keeps. -/
theorem runCommands_keeps {P : State → Prop} {cs : List Command}
    (hP : ∀ c ∈ cs, ∀ s t, runCommand c s = .next t → P s → P t) {s t : State} (h : runCommands cs s = .next t)
    (hs : P s) : P t := by
  induction cs generalizing s with
  | nil => cases h; exact hs
  | cons c cs ih =>
    have hrest := fun d hd => hP d (List.mem_cons_of_mem c hd)
    rw [runCommands] at h
    cases hc : runCommand c s with
    | next u => rw [hc] at h; exact ih hrest h (hP c List.mem_cons_self s u hc hs)
    | refused r => rw [hc] at h; exact ih hrest h hs
    | fault r => rw [hc] at h; cases h

/-- A longer run goes on from the state that a shorter one reaches. -/
theorem runCommands_take_of_le {cs : List Command} {s u : State} {n k : Nat} (hnk : n ≤ k)
    (h : runCommands (cs.take n) s = .next u) :
    runCommands (cs.take k) s = runCommands ((cs.drop n).take (k - n)) u := by
  rw [← Nat.add_sub_cancel' hnk, List.take_add, runCommands_append, h, Nat.add_sub_cancel_left]

theorem mem_of_mem_take_drop {cs : List Command} {n k : Nat} {c : Command} (h : c ∈ (cs.drop n).take k) : c ∈ cs :=
  List.mem_of_mem_drop (List.mem_of_mem_take h)

/-- A halted block stays halted as long as the host makes no new creation (R32, R201). -/
theorem halted_of_runCommand {c : Command} {s t : State} (h : runCommand c s = .next t) (hc : c ≠ .create)
    (hs : s.halted = true) : t.halted = true :=
  (onlyCreationClearsTheFaultState c s t h hc (.inl hs)).1.trans hs

/-- At the end of a run the step is the jump to itself (R240). -/
theorem State.atEnd.step_eq {s : State} (h : s.atEnd) : step s = .next s := by
  obtain ⟨hrun, hpc, hword⟩ := h
  have hfits : (Instr.jp s.pc).wellFormed = true := decide_eq_true (Nat.lt_of_succ_lt hpc)
  have hjump : Fetches s (.jp s.pc) := ⟨hpc, hword ▸ decodeWord_encode hfits _⟩
  exact step_eq_exec hrun hjump

/-- At the end of a run a command that neither loads nor sets `pc` changes the timers and the keys only (R240). -/
theorem State.atEnd.eq_of_runCommand {c : Command} {s t : State} (hs : s.atEnd) (hc : c.keepsProgram = true)
    (h : runCommand c s = .next t) : t = { s with dt := t.dt, st := t.st, key := t.key } := by
  cases c with
  | step => cases hs.step_eq.symm.trans h; rfl
  | setKey k down => rw [setKey_eq_next h]
  | getPixel x y => rw [runCommand_getPixel_eq_next h]
  | tick | readState => cases h; rfl
  | create | loadFont | loadBytes | start => cases hc

theorem State.atEnd.of_runCommand {c : Command} {s t : State} (hs : s.atEnd) (hc : c.keepsProgram = true)
    (h : runCommand c s = .next t) : t.atEnd := by
  rw [hs.eq_of_runCommand hc h]
  exact hs

/-! ### Ends and faults of one run -/

theorem RunEnds.unique {cs : List Command} {s t u : State} (ht : RunEnds cs s t) (hu : RunEnds cs s u) : t = u := by
  obtain ⟨-, n, hn, htend, hnfirst⟩ := ht
  obtain ⟨-, m, hm, huend, hmfirst⟩ := hu
  obtain hlt | rfl | hlt := Nat.lt_trichotomy n m
  · exact absurd htend (hmfirst n t hlt hn)
  · exact Host.Outcome.next.inj (hn.symm.trans hm)
  · exact absurd huend (hnfirst m u hlt hm)

/-- No end comes after a fault: without a new creation the block stays halted. -/
theorem not_atEnd_of_halted_of_le {cs : List Command} {s f t : State} {n k : Nat} (hcreate : .create ∉ cs)
    (hf : runCommands (cs.take n) s = .next f) (hhalted : f.halted = true) (hnk : n ≤ k)
    (ht : runCommands (cs.take k) s = .next t) : ¬ t.atEnd := by
  rw [runCommands_take_of_le hnk hf] at ht
  have hkept : t.halted = true := runCommands_keeps (P := fun u => u.halted = true)
    (fun c hc _ _ h => halted_of_runCommand h fun e => hcreate (e ▸ mem_of_mem_take_drop hc)) ht hhalted
  exact fun hend => hend.not_halted hkept

/-- No fault comes after an end, where the host neither loads nor sets `pc`. -/
theorem not_halted_of_atEnd_of_le {cs : List Command} {s f t : State} {n k : Nat} (hcs : ∀ c ∈ cs, c.keepsProgram = true)
    (ht : runCommands (cs.take k) s = .next t) (hend : t.atEnd) (hkn : k ≤ n)
    (hf : runCommands (cs.take n) s = .next f) : f.halted ≠ true := by
  rw [runCommands_take_of_le hkn ht] at hf
  exact (runCommands_keeps (P := State.atEnd)
    (fun c hc _ _ h hs => hs.of_runCommand (hcs c (mem_of_mem_take_drop hc)) h) hf hend).not_halted

/-- Settles O53: two first ends are the same one; an end at or after the fault would be halted, and one before it is shut out
or would have kept the fault away. -/
theorem runsEndInAtMostOneStateAndNeverAfterAFault : Obligations.RunsEndInAtMostOneStateAndNeverAfterAFault := by
  unfold Obligations.RunsEndInAtMostOneStateAndNeverAfterAFault
  intro cs s
  refine ⟨fun t u => RunEnds.unique, fun n f hf hhalted hbefore => ?_⟩
  rintro ⟨t, hcreate, k, hk, hend, -⟩
  obtain hkn | hnk := Nat.lt_or_ge k n
  · obtain hnone | hkeeps := hbefore
    · exact hnone k t hkn hk hend
    · exact not_halted_of_atEnd_of_le hkeeps hk hend hkn.le hf hhalted
  · exact not_atEnd_of_halted_of_le hcreate hf hhalted hnk hk hend

end Sys2Proof.Machine

/-! The end of a run (R240): steps and the host operations that load nothing go on from it, and leave it there. -/

namespace Sys2Proof.Machine

/-- The model stops on a step only: a host operation is done or refused (R216, R218, R220). -/
theorem eq_step_of_runCommand_eq_fault {c : Command} {s : State} {f : Fault} (h : runCommand c s = .fault f) :
    c = .step := by
  cases c with
  | step => rfl
  | loadBytes addr bytes => simp only [runCommand, loadBytes] at h; split at h <;> cases h
  | setKey k down => simp only [runCommand, setKey] at h; split at h <;> cases h
  | getPixel x y => simp only [runCommand] at h; split at h <;> cases h
  | create | loadFont | start | tick | readState => cases h

/-- At the end of a run no command stops the model: the step there is a next state (R240). -/
theorem State.atEnd.runCommand_ne_fault {s : State} (hs : s.atEnd) (c : Command) (f : Fault) :
    runCommand c s ≠ .fault f := by
  intro h
  obtain rfl := eq_step_of_runCommand_eq_fault h
  cases hs.step_eq.symm.trans h

/-- Commands that neither load nor set `pc` always go on from the end of a run. -/
theorem State.atEnd.runCommands_eq_next {cs : List Command} {s : State} (hs : s.atEnd)
    (hcs : ∀ c ∈ cs, c.keepsProgram = true) : ∃ t, runCommands cs s = .next t := by
  induction cs generalizing s with
  | nil => exact ⟨s, rfl⟩
  | cons c cs ih =>
    obtain ⟨hc, hrest⟩ := List.forall_mem_cons.1 hcs
    rw [runCommands]
    cases h : runCommand c s with
    | next u => exact ih (hs.of_runCommand hc h) hrest
    | refused r => exact ih hs hrest
    | fault f => exact absurd h (hs.runCommand_ne_fault c f)

/-- Such commands, one after another, leave the end of a run at the end, with the timers and the keys alone changed. -/
theorem State.atEnd.of_runCommands {cs : List Command} {s t : State} (hs : s.atEnd)
    (hcs : ∀ c ∈ cs, c.keepsProgram = true) (h : runCommands cs s = .next t) :
    t.atEnd ∧ t = { s with dt := t.dt, st := t.st, key := t.key } := by
  refine runCommands_keeps (P := fun u => u.atEnd ∧ u = { s with dt := u.dt, st := u.st, key := u.key })
    (fun c hc u w hcmd hu => ?_) h ⟨hs, rfl⟩
  obtain ⟨huend, hframe⟩ := hu
  have hchange : w = { u with dt := w.dt, st := w.st, key := w.key } := huend.eq_of_runCommand (hcs c hc) hcmd
  exact ⟨huend.of_runCommand (hcs c hc) hcmd, by rw [hchange, hframe]⟩

/-- Settles O52: the step at the end is a fixed point, and the commands go on, each of them keeping the end and all but the
timers and the keys. -/
theorem endOfRunIsAFixedPoint : Obligations.EndOfRunIsAFixedPoint := by
  unfold Obligations.EndOfRunIsAFixedPoint
  intro s hs
  refine ⟨stepN_fixed hs.step_eq, fun cs hcs => ?_⟩
  obtain ⟨t, ht⟩ := hs.runCommands_eq_next hcs
  exact ⟨t, ht, hs.of_runCommands hcs ht⟩

end Sys2Proof.Machine
